-- ==== Sys2Proof/Word.lean ====
section
/-! DEFINITION. Words of the block: one bit and one 4-bit operation word. -/

namespace Sys2Proof

/-- One raw bit: `true` is 1, `false` is 0 (00_scope.md R11). -/
abbrev Bit := Bool

/-- One operation word of the format `OP4` (30_encoding.md R48). -/
abbrev OpWord := BitVec 4

end Sys2Proof
end

