-- ==== Sys2Proof/Config.lean ====
section
/-! DEFINITION. The implementation parameters of 00_scope.md section 4, the example configuration EX5 of
95_test_vectors.md, and the free values: constants without a body, so that no proof can lean on a value of theirs. -/

namespace Sys2Proof

/-- The parameters of a run (00_scope.md R5 to R10). No operation writes one. -/
structure Config where
  /-- `PRESSED_RAW`: the raw pin value that means pressed (R5). -/
  pressedRaw : Bit
  /-- `DEBOUNCE_MS`: the argument of the debounce delay, in milliseconds (R6). -/
  debounceMs : Nat
  /-- `TABLE[0 .. TABLE_LEN-1]` (R7). -/
  table : List Nat
  /-- `FREQ[i]`: the target frequencies the table was made from (section 4, 41_selector.md R83); no operation reads it. -/
  freq : List Nat
  /-- `PR_WIDTH`: bits of the period register (R8). -/
  prWidth : Nat
  /-- `ARG_W`: bits of an argument on the collaborator interface (R9). -/
  argW : Nat
  /-- `BTN_PIN` (R9). -/
  btnPin : Nat
  /-- `PWM_PIN` (R9). -/
  pwmPin : Nat
  /-- `PULLUP_EN` (R9). -/
  pullupEn : Bit
  /-- `CLK_SOURCE` (R9). -/
  clkSource : Nat
  /-- `CLK_HZ`, the clock rate C of the conversion formula (R9, 43_bringup.md R97). -/
  clkHz : Nat
  /-- `ON_TIME_US` (R9). -/
  onTimeUs : Nat
  /-- `TIMER_SOURCE` (R9). -/
  timerSource : Nat
  /-- `PRESCALER`, the prescaler P of the conversion formula (R9, 43_bringup.md R99). -/
  prescaler : Nat
  deriving DecidableEq, Repr

/-- `TABLE_LEN` (00_scope.md R7). -/
abbrev Config.tableLen (c : Config) : Nat := c.table.length

/-- `PR_MAX = 2^PR_WIDTH - 1` (00_scope.md R8). -/
def Config.prMax (c : Config) : Nat := 2 ^ c.prWidth - 1

/-- Free value (log 4): the n-th pin sample where the pin script lists none (10_state.md R23, 92_eei_decisions.md D20). -/
opaque Config.freePin : Nat → Bit

/-- Free value (log 8): which of the two argument pairs of 30_encoding.md R52 a CFGDIR carries outside the phases that issue it. -/
opaque Config.freeChoice : Nat → Bool

/-- Free value (log 3): `BTN_PIN` of EX5, symbolic in 95_test_vectors.md section 0. -/
opaque Config.ex5BtnPin : Nat
/-- Free value (log 3): `PWM_PIN` of EX5. -/
opaque Config.ex5PwmPin : Nat
/-- Free value (log 3): `PULLUP_EN` of EX5. -/
opaque Config.ex5PullupEn : Bit
/-- Free value (log 3): `CLK_SOURCE` of EX5. -/
opaque Config.ex5ClkSource : Nat
/-- Free value (log 3): `ON_TIME_US` of EX5. -/
opaque Config.ex5OnTimeUs : Nat
/-- Free value (log 3): `TIMER_SOURCE` of EX5. -/
opaque Config.ex5TimerSource : Nat

/-- The example configuration EX5 of 95_test_vectors.md section 0. DESIGN CHOICE (log 1): it is what `State.reset`
holds; every statement about the machine is about an arbitrary configuration. `argW` is no part of EX5 (log 2). -/
def Config.ex5 : Config where
  pressedRaw := false
  debounceMs := 10
  table := [199, 159, 99, 79, 39]
  freq := [20000, 25000, 40000, 50000, 100000]
  prWidth := 8
  argW := 32
  btnPin := Config.ex5BtnPin
  pwmPin := Config.ex5PwmPin
  pullupEn := Config.ex5PullupEn
  clkSource := Config.ex5ClkSource
  clkHz := 16000000
  onTimeUs := Config.ex5OnTimeUs
  timerSource := Config.ex5TimerSource
  prescaler := 1

end Sys2Proof
end

