-- ==== Sys2Proof/Syntax.lean ====
section
/-! DEFINITION. The sixteen rows of spec/opcode_table.json and the operation stream, as syntax. -/

namespace Sys2Proof

/-- One constructor for each of the sixteen code points (30_encoding.md R50). No operation word carries an operand
(R48), so no constructor has one. -/
inductive Instr where
  /-- 0x0, primitive `configurePinDirection` (43_bringup.md R95). -/
  | cfgdir
  /-- 0x1, primitive `configurePinPullUp` (43_bringup.md R96). -/
  | cfgpu
  /-- 0x2, primitive `selectClockSource` (43_bringup.md R97). -/
  | selclk
  /-- 0x3, primitive `configurePwmOutput` (43_bringup.md R98). -/
  | cfgpwm
  /-- 0x4, primitive `armPeriodTimer` (43_bringup.md R99). -/
  | armtmr
  /-- 0x5, primitive `setPeriodRegister` (41_selector.md R80). -/
  | setpr
  /-- 0x6, primitive `readDigitalPin` (40_debouncer.md R67). -/
  | readpin
  /-- 0x7, primitive `delayMilliseconds` (40_debouncer.md R68). -/
  | delay
  /-- 0x8, the Debouncer's `poll()` (40_debouncer.md R62). -/
  | poll
  /-- 0x9, the Selector's `advance()` (41_selector.md R76). -/
  | advance
  /-- 0xA, one iteration of the main control loop (42_main_loop.md R86). -/
  | loop
  /-- 0xB, the hardware bring-up (43_bringup.md R94). -/
  | boot
  /-- 0xC, reserved (30_encoding.md R55). -/
  | reservedC
  /-- 0xD, reserved (30_encoding.md R55). -/
  | reservedD
  /-- 0xE, reserved (30_encoding.md R55). -/
  | reservedE
  /-- 0xF, reserved (30_encoding.md R55). -/
  | reservedF
  deriving DecidableEq, Repr

/-- An operation stream `PROG` (42_main_loop.md R88 to R90): a finite list of operation words, after which `LOOP` may
repeat without end. The words are not decoded: a stream may be ill-formed (30_encoding.md R55, R56). Log 22. -/
structure Prog where
  /-- The words at positions 0, 1, ... -/
  words : List OpWord
  /-- Whether `LOOP` repeats without end after the words. -/
  thenLoops : Bool
  deriving DecidableEq, Repr

end Sys2Proof
end

