-- ==== Sys2Proof/WellFormed.lean ====
section
/-! DEFINITION. What is well formed: an element of an operation stream and a configuration. The refusals that name the
first violation are computed in Machine/Launch.lean. -/

namespace Sys2Proof

/-- A legal element of an operation stream is one of `POLL`, `ADVANCE`, `LOOP`, `BOOT` (30_encoding.md R55, R56, R59). -/
def Instr.streamLegal : Instr → Bool
  | .poll | .advance | .loop | .boot => true
  | .cfgdir | .cfgpu | .selclk | .cfgpwm | .armtmr | .setpr | .readpin | .delay => false
  | .reservedC | .reservedD | .reservedE | .reservedF => false

/-- The class bit `cls` is 0: a primitive, issued by the block on its interface (30_encoding.md R48, R50). -/
def Instr.isPrimitive : Instr → Bool
  | .cfgdir | .cfgpu | .selclk | .cfgpwm | .armtmr | .setpr | .readpin | .delay => true
  | .poll | .advance | .loop | .boot => false
  | .reservedC | .reservedD | .reservedE | .reservedF => false

/-- One of the four reserved codes (30_encoding.md R55). -/
def Instr.isReserved : Instr → Bool
  | .reservedC | .reservedD | .reservedE | .reservedF => true
  | .cfgdir | .cfgpu | .selclk | .cfgpwm | .armtmr | .setpr | .readpin | .delay => false
  | .poll | .advance | .loop | .boot => false

/-- `TABLE_LEN >= 1` (00_scope.md R7). -/
def Config.tableNonempty (c : Config) : Bool := !c.table.isEmpty

/-- Every `TABLE[i] <= PR_MAX` (00_scope.md R7, R8). -/
def Config.entriesFit (c : Config) : Bool := c.table.all fun v => decide (v ≤ c.prMax)

/-- Each entry is smaller than the one before it. -/
def strictlyDecreasing : List Nat → Bool
  | [] => true
  | [_] => true
  | a :: b :: rest => decide (b < a) && strictlyDecreasing (b :: rest)

/-- `TABLE[i] < TABLE[i-1]` for `1 <= i < TABLE_LEN` (41_selector.md R84). -/
def Config.tableDecreasing (c : Config) : Bool := strictlyDecreasing c.table

/-- A natural number fits `ARG_W` bits (00_scope.md R9). -/
def Config.fitsArg (c : Config) (v : Nat) : Bool := decide (v < 2 ^ c.argW)

/-- The constraints of 00_scope.md R6, R8, R9 on widths, which no refusal reason of 60_exceptions.md R112 names (log 21). -/
def Config.widthsFit (c : Config) : Bool :=
  decide (1 ≤ c.prWidth) && decide (max c.prWidth 1 ≤ c.argW) && c.fitsArg c.debounceMs && c.fitsArg c.btnPin &&
  c.fitsArg c.pwmPin && c.fitsArg c.clkSource && c.fitsArg c.clkHz && c.fitsArg c.onTimeUs &&
  c.fitsArg c.timerSource && c.fitsArg c.prescaler

/-- `FREQ[i]`, `CLK_HZ` and `PRESCALER` are positive (00_scope.md section 4, summary of parameters under R10). -/
def Config.ratesPositive (c : Config) : Bool :=
  (c.freq.all fun f => decide (0 < f)) && decide (0 < c.clkHz) && decide (0 < c.prescaler)

/-- The configuration has none of the three violations a run is refused for (60_exceptions.md R112). -/
def Config.legal (c : Config) : Bool := c.tableNonempty && c.entriesFit && c.tableDecreasing

/-- The constraints of 00_scope.md section 4 on each parameter (log 21). The tie of `TABLE` to `FREQ` by 41_selector.md
R83, which the same summary names, is `meetsSectionFour` in Machine/Formula.lean. -/
def Config.wf (c : Config) : Bool := c.legal && c.widthsFit && c.ratesPositive

end Sys2Proof
end

