-- ==== Sys2Proof/Decode.lean ====
section
/-! DEFINITION. The decoder of operation words (total), the encoder, and the operation stream read by position
(30_encoding.md R48, R50, R57; 42_main_loop.md R88, R89). -/

namespace Sys2Proof

/-- The decoder: total on 4-bit words, every bit significant (30_encoding.md R50, R57). -/
def decode (w : OpWord) : Instr :=
  match w.toNat with
  | 0x0 => .cfgdir
  | 0x1 => .cfgpu
  | 0x2 => .selclk
  | 0x3 => .cfgpwm
  | 0x4 => .armtmr
  | 0x5 => .setpr
  | 0x6 => .readpin
  | 0x7 => .delay
  | 0x8 => .poll
  | 0x9 => .advance
  | 0xA => .loop
  | 0xB => .boot
  | 0xC => .reservedC
  | 0xD => .reservedD
  | 0xE => .reservedE
  | _ => .reservedF

/-- The class bit `cls = w[3]` (30_encoding.md R48): 0 a collaborator primitive, 1 a sequencer operation or reserved. -/
def OpWord.cls (w : OpWord) : Bool := w.getLsbD 3

/-- The selector `sel = w[2:0]` (30_encoding.md R48). -/
def OpWord.sel (w : OpWord) : BitVec 3 := w.extractLsb' 0 3

/-- The encoder: the word `{cls, sel}` of each row (30_encoding.md R48, R50). -/
def encode : Instr → OpWord
  | .cfgdir => 0b0000#4
  | .cfgpu => 0b0001#4
  | .selclk => 0b0010#4
  | .cfgpwm => 0b0011#4
  | .armtmr => 0b0100#4
  | .setpr => 0b0101#4
  | .readpin => 0b0110#4
  | .delay => 0b0111#4
  | .poll => 0b1000#4
  | .advance => 0b1001#4
  | .loop => 0b1010#4
  | .boot => 0b1011#4
  | .reservedC => 0b1100#4
  | .reservedD => 0b1101#4
  | .reservedE => 0b1110#4
  | .reservedF => 0b1111#4

/-- Why a number is no operation. -/
inductive DecodeReject where
  /-- The number does not fit the four bits of an operation word (30_encoding.md R48). -/
  | notAnOpWord
  deriving DecidableEq, Repr

/-- The decoder on any number: an operation word is one of 0x0 to 0xF, anything wider is rejected by name (log 23). -/
def decodeNat (w : Nat) : Except DecodeReject Instr :=
  if w < 16 then .ok (decode (BitVec.ofNat 4 w)) else .error .notAnOpWord

/-- The instruction the decoder reads from the `nbits` bits of `w`. A word is four bits; the table's row, in whole
bytes, has eight, of which the upper four are no part of the word and must be 0 (log 23). -/
def decodeTableWord (_nbits w : Nat) : Option Instr :=
  match decodeNat w with
  | .ok i => some i
  | .error _ => none

/-- The stream's word at position `k`, if it has one (42_main_loop.md R88, R90). -/
def Prog.word? (p : Prog) (k : Nat) : Option OpWord :=
  match p.words[k]? with
  | some w => some w
  | none => if p.thenLoops then some (encode .loop) else none

/-- The normative stream `AUTO = BOOT; LOOP; LOOP; ...` (42_main_loop.md R89). -/
def Prog.auto : Prog := { words := [encode .boot], thenLoops := true }

/-- A finite stream of operations (42_main_loop.md R90). -/
def Prog.ofList (is : List Instr) : Prog := { words := is.map encode, thenLoops := false }

/-- The stream with word `w` at position `k`; positions the stream did not have before `k` hold `LOOP`. -/
def Prog.place (p : Prog) (k : Nat) (w : OpWord) : Prog :=
  { p with words := (List.range k).map (fun j => (p.word? j).getD (encode .loop)) ++ w :: p.words.drop (k + 1) }

end Sys2Proof
end

