-- ==== Sys2Proof/Machine/State.lean ====
section
/-! DEFINITION. The state of the block as plain data, the reasons a step can stop, and the state after reset
(10_state.md; 60_exceptions.md R112). -/

namespace Sys2Proof.Machine

/-- An abstract level of the button (00_scope.md R11). -/
inductive Level where
  | released
  | pressed
  deriving DecidableEq, Repr

/-- The output set of `poll()` (00_scope.md R11, 10_state.md R16). -/
inductive PollResult where
  | noChange
  | press
  deriving DecidableEq, Repr

/-- The ten phases (10_state.md R19). -/
inductive Phase where
  /-- The six steps of `BOOT` (43_bringup.md R100). -/
  | B0 | B1 | B2 | B3 | B4 | B5
  /-- Sample and edge test of `POLL` (40_debouncer.md R63). -/
  | S
  /-- Debounce delay of `POLL` (40_debouncer.md R64). -/
  | D
  /-- Wait for release of `POLL` (40_debouncer.md R65). -/
  | W
  /-- The single step of `ADVANCE` (41_selector.md R77). -/
  | A
  deriving DecidableEq, Repr

/-- The control state `(k, ph)` (10_state.md R18, R19). -/
structure Pc where
  /-- Position in the operation stream; a natural number without wrap-around. -/
  k : Nat
  /-- Phase inside the operation at `k`. -/
  ph : Phase
  deriving DecidableEq, Repr

/-- One issued primitive with its arguments, or for `READPIN` the returned bit (10_state.md R24). -/
inductive Event where
  | cfgdir (pin : Nat) (out : Bool)
  | cfgpu (pin : Nat) (en : Bool)
  | selclk (src hz : Nat)
  | cfgpwm (us tsrc : Nat)
  | armtmr (v p : Nat)
  | setpr (v : Nat)
  | readpin (b : Bit)
  | delay (ms : Nat)
  deriving DecidableEq, Repr

/-- What is known of the pin oracle `Pin` (10_state.md R23; script syntax 30_encoding.md R59): the first samples, and
the bit that repeats for ever after them, if one does. Every other sample is a free value (log 4). -/
structure PinScript where
  bits : List Bit
  rest : Option Bit
  deriving DecidableEq, Repr

/-- The input pins `rst` and `prim_ack` at one rising clock edge (20_memory.md R44, R45). The third, `prim_rdata`, carries
the pin oracle's sample and is read off the state in Machine/Ports.lean (log 31). -/
structure PortIn where
  rst : Bool
  ack : Bool
  deriving DecidableEq, Repr

/-- Where a run stands (60_exceptions.md R112, 10_state.md R29; log 14). -/
inductive RunStatus where
  /-- Before the first step: the launch checks are still to be made. -/
  | launch
  /-- Launched. -/
  | running
  /-- The operation at the last position of a finite stream has completed (42_main_loop.md R90). -/
  | ended
  deriving DecidableEq, Repr

/-- Everything the spec gives the machine, and the parameters of a run. -/
structure State where
  /-- The parameters (00_scope.md section 4). -/
  cfg : Config
  /-- The operation stream `PROG` (42_main_loop.md R88). -/
  prog : Prog
  /-- The pin oracle (10_state.md R23). -/
  pin : PinScript
  /-- The input pins at the coming clock edges; none listed reads as `rst` low, `prim_ack` high (log 16). -/
  inputs : List PortIn
  /-- `prev`, the Debounce State: the raw level of the last poll's first sample (10_state.md R13). -/
  prev : Bit
  /-- `idx`, the Selector State (10_state.md R14). -/
  idx : Nat
  /-- `res`, the result flag (10_state.md R16). -/
  res : PollResult
  /-- `pc` (10_state.md R18). -/
  pc : Pc
  /-- `PR`, the observed period register; `none` is the mark `unwritten` (10_state.md R21, R27). -/
  pr : Option Nat
  /-- `hist`, oldest event first (10_state.md R24). -/
  hist : List Event
  /-- `rd`, the count of pin reads (10_state.md R23). -/
  rd : Nat
  /-- The output tap `evt_press` (20_memory.md R44). -/
  evtPress : Bool
  /-- Where the run stands (log 14). -/
  status : RunStatus
  deriving DecidableEq, Repr

/-- There is no fault outcome: no rule of the block faults (60_exceptions.md R106, R112; log 29). -/
inductive Fault where
  deriving DecidableEq, Repr

/-- Why a state is given no next state. The first seven after `notModelled` are the closed list of 60_exceptions.md R112.
Every refusal is safe: the model stops where it has no meaning to give. -/
inductive Refusal where
  /-- An instruction without a meaning in this model; raised by no arm. -/
  | notModelled (mnemonic : String)
  /-- Code 0xC to 0xF at stream position `k` (30_encoding.md R55). Raised by the launch check and by the reserved codes. Safe. -/
  | reservedOp (k : Nat)
  /-- Code 0x0 to 0x7 at stream position `k` (30_encoding.md R56). Raised by the launch check and by the fetch. Safe. -/
  | primitiveInStream (k : Nat)
  /-- `TABLE_LEN = 0`. Raised by the launch check and by a read of `TABLE[0]` of an empty table. Safe. -/
  | emptyTable
  /-- `TABLE[i] > PR_MAX` (00_scope.md R7). Raised by the launch check. Safe. -/
  | entryTooLarge (i : Nat)
  /-- `TABLE[i] >= TABLE[i-1]` (41_selector.md R84). Raised by the launch check. Safe. -/
  | tableNotDecreasing (i : Nat)
  /-- `idx >= TABLE_LEN` (10_state.md R29). Raised by the launch check and by a `SETPR` of `TABLE[idx]` out of range. Safe. -/
  | indexOutOfRange
  /-- A launch state whose `pc` is not at an operation boundary (10_state.md R29). Raised by the launch check. Safe. -/
  | midOperationLaunch
  /-- The run has ended, or the stream has no operation at `k` (42_main_loop.md R90; log 11). Safe. -/
  | ended
  /-- A pair of operation and phase outside the table of 42_main_loop.md R88, "unreachable" (log 13). Safe. -/
  | unreachablePhase
  deriving DecidableEq, Repr

/-- The state after reset and before the first step (10_state.md R26, 70_reset_and_hazards.md R120 to R123), at the
example configuration (log 1), the stream `AUTO` (42_main_loop.md R89) and an unlisted pin oracle (log 4). The values of `pr`,
`prev`, `res`, `inputs`, `status` and `evtPress` are said in logs 5, 6, 7, 16, 14 and 18. -/
def State.reset : State where
  cfg := Config.ex5
  prog := Prog.auto
  pin := { bits := [], rest := none }
  inputs := []
  prev := !Config.ex5.pressedRaw
  idx := 0
  res := .noChange
  pc := { k := 0, ph := .B0 }
  pr := none
  hist := []
  rd := 0
  evtPress := false
  status := .launch

end Sys2Proof.Machine
end

