-- ==== Sys2Proof/Machine/Operands.lean ====
section
/-! DEFINITION. Where operands come from: levels and raw bits, the table, the pin oracle, the stream's operation, and
the arguments each primitive is issued with (00_scope.md R10, R11; 20_memory.md R31, R33; 30_encoding.md R52). -/

namespace Sys2Proof.Machine

/-- `LevelOf(b)` (00_scope.md R11). -/
def levelOf (c : Config) (b : Bit) : Level := if b == c.pressedRaw then .pressed else .released

/-- `RawOf(level)` (00_scope.md R11). -/
def rawOf (c : Config) : Level → Bit
  | .pressed => c.pressedRaw
  | .released => !c.pressedRaw

/-- `IDX_WIDTH = max(1, ceil(log2(TABLE_LEN)))` (00_scope.md R10). -/
def idxWidth (c : Config) : Nat := if c.tableLen ≤ 2 then 1 else Nat.log2 (c.tableLen - 1) + 1

/-- `TableRead(i)`: no event, no side effect, no value outside the table (20_memory.md R31). -/
def tableRead (c : Config) (i : Nat) : Option Nat := c.table[i]?

/-- The index after the one in `idx`: incremented in `IDX_WIDTH + 1` bits, compared unsigned with `TABLE_LEN`, and set
to 0 if it equals or exceeds it (41_selector.md R77, R78; log 15). -/
def nextIdx (c : Config) (idx : Nat) : Nat :=
  let n := (idx + 1) % 2 ^ (idxWidth c + 1)
  if c.tableLen ≤ n then 0 else n

/-- The narrowing `n[IDX_WIDTH-1:0]` (41_selector.md R77). -/
def narrowIdx (c : Config) (n : Nat) : Nat := n % 2 ^ idxWidth c

/-- `Pin(n)` (10_state.md R23; script 30_encoding.md R59). -/
def PinScript.sample (p : PinScript) (n : Nat) : Bit :=
  match p.bits[n]? with
  | some b => b
  | none => p.rest.getD (Config.freePin n)

/-- The sample the next `ReadPin()` returns (10_state.md R23, 20_memory.md R33). -/
def nextSample (s : State) : Bit := s.pin.sample s.rd

/-- The operation at position `k` of the stream (42_main_loop.md R88). -/
def opAt (s : State) (k : Nat) : Option Instr := (s.prog.word? k).map decode

/-- The operation being executed. -/
def currentOp (s : State) : Option Instr := opAt s s.pc.k

/-- `entry(o)` (42_main_loop.md R88); only the four sequencer operations have an entry phase. -/
def entryPhase : Instr → Option Phase
  | .boot => some .B0
  | .poll | .loop => some .S
  | .advance => some .A
  | .cfgdir | .cfgpu | .selclk | .cfgpwm | .armtmr | .setpr | .readpin | .delay => none
  | .reservedC | .reservedD | .reservedE | .reservedF => none

/-- The arguments of `CFGDIR` (30_encoding.md R52, 43_bringup.md R100): `(BTN_PIN, 0)` in phase `B0`, `(PWM_PIN, 1)` in
phase `B1`; in any other phase the spec names no source, and which of the two it is stays free (log 8). -/
def cfgdirArgs (s : State) : Nat × Bool :=
  match s.pc.ph with
  | .B0 => (s.cfg.btnPin, false)
  | .B1 => (s.cfg.pwmPin, true)
  | .B2 | .B3 | .B4 | .B5 | .S | .D | .W | .A =>
    if Config.freeChoice s.hist.length then (s.cfg.pwmPin, true) else (s.cfg.btnPin, false)

end Sys2Proof.Machine
end

