-- ==== Sys2Proof/Machine/Flags.lean ====
section
/-! DEFINITION. The one condition flag `res`, the press edge test, and the value encodings (40_debouncer.md R63, R72;
30_encoding.md R53, R54). -/

namespace Sys2Proof.Machine

/-- A press edge: the stored level is Released and the fresh sample is Pressed (40_debouncer.md R63, R72). -/
def isPressEdge (c : Config) (old cur : Bit) : Bool :=
  levelOf c old == .released && levelOf c cur == .pressed

/-- `PollResult` in one bit (30_encoding.md R53). -/
def PollResult.code : PollResult → BitVec 1
  | .noChange => 0#1
  | .press => 1#1

/-- The result flag read back from its bit (30_encoding.md R53). -/
def PollResult.ofCode (b : BitVec 1) : PollResult := if b == 0#1 then .noChange else .press

/-- The phase register's code (30_encoding.md R54). -/
def Phase.code : Phase → BitVec 4
  | .B0 => 0x0#4
  | .B1 => 0x1#4
  | .B2 => 0x2#4
  | .B3 => 0x3#4
  | .B4 => 0x4#4
  | .B5 => 0x5#4
  | .S => 0x8#4
  | .D => 0x9#4
  | .W => 0xA#4
  | .A => 0xB#4

/-- The phase a hardware realisation is in at the next edge after the code: an unused code becomes `B0` (30_encoding.md R54). -/
def Phase.ofCode (w : BitVec 4) : Phase :=
  match w.toNat with
  | 0x0 => .B0
  | 0x1 => .B1
  | 0x2 => .B2
  | 0x3 => .B3
  | 0x4 => .B4
  | 0x5 => .B5
  | 0x8 => .S
  | 0x9 => .D
  | 0xA => .W
  | 0xB => .A
  | _ => .B0

end Sys2Proof.Machine
end

