-- ==== Sys2Proof/Machine/Ops.lean ====
section
/-! DEFINITION. The named operations the meanings share: recording an event, the eight primitives, completion and the
move between phases, the phases of the operations, and reset. There is no taking of an exception and no return from one
(60_exceptions.md R106, R112, R113): the block has neither. -/

namespace Sys2Proof.Machine

/-- The result type of every meaning. -/
abbrev Result := Host.Outcome State Fault Refusal

/-- `hist ++ [e]` (00_scope.md R11, 10_state.md R24). -/
def emit (e : Event) (s : State) : State := { s with hist := s.hist ++ [e] }

/-- `ReadPin()`: the state after it; the sample it returned is `nextSample` of the state before (40_debouncer.md R67). -/
def readPin (s : State) : State := emit (.readpin (nextSample s)) { s with rd := s.rd + 1 }

/-- `Delay(ms)` (40_debouncer.md R68). -/
def issueDelay (ms : Nat) (s : State) : State := emit (.delay ms) s

/-- `SetPeriod(v)` (41_selector.md R80). -/
def setPeriod (v : Nat) (s : State) : State := emit (.setpr v) { s with pr := some v }

/-- `ARMTMR(v, p)`: records the event and loads the period register (43_bringup.md R99). -/
def armTimer (v p : Nat) (s : State) : State := emit (.armtmr v p) { s with pr := some v }

/-- `pc <- (k, ph)` with `k` unchanged (42_main_loop.md R88). -/
def goto (ph : Phase) (s : State) : State := { s with pc := { s.pc with ph := ph } }

/-- Completion (42_main_loop.md R88): on to the entry phase of the next operation, or, if the stream has no element
`k + 1`, the end of the run (R90; log 11: `pc` then stays). An ill-formed element has no entry phase; it is refused by
the fetch, and `ph` is `B0` until then. -/
def complete (s : State) : State :=
  match opAt s (s.pc.k + 1) with
  | some o => { s with pc := { k := s.pc.k + 1, ph := (entryPhase o).getD .B0 } }
  | none => { s with status := .ended }

/-- `POLL` phase `S`, also of `LOOP` (40_debouncer.md R63, 42_main_loop.md R87): one sample, `prev` written
unconditionally, the edge test on the value `prev` had before. -/
def phaseS (s : State) : State :=
  let cur := nextSample s
  let s1 := { readPin s with prev := cur }
  if isPressEdge s.cfg s.prev cur then goto .D s1
  else complete { s1 with res := .noChange }

/-- `POLL` phase `D`, also of `LOOP` (40_debouncer.md R64). -/
def phaseD (s : State) : State := goto .W (issueDelay s.cfg.debounceMs s)

/-- `POLL` phase `W`, also of `LOOP` (40_debouncer.md R65): one sample, not stored in `prev` (R69); stay while Pressed.
On Released the poll is over: `evt_press` is high for the next cycle (20_memory.md R44) and `released` says where the
operation goes (completion for `POLL`, phase `A` for `LOOP`, 42_main_loop.md R87). -/
def phaseW (released : State → State) (s : State) : State :=
  let s1 := { readPin s with res := .press }
  if levelOf s.cfg (nextSample s) = .pressed then goto .W s1
  else released { s1 with evtPress := true }

/-- `ADVANCE` phase `A`, also of `LOOP` (41_selector.md R77): increment, wrap, look up, write, complete. The table has
an entry at the new index unless it is empty. -/
def phaseA (s : State) : Result :=
  let n := nextIdx s.cfg s.idx
  match tableRead s.cfg n with
  | some v => .next (complete (setPeriod v { s with idx := narrowIdx s.cfg n }))
  | none => .refused .emptyTable

/-- The state values of reset (10_state.md R26; 70_reset_and_hazards.md R120, R121, R125): `rd`, the parameters and the
environment are not rewound (10_state.md R23), and the run is launched anew (log 17). -/
def applyReset (s : State) : State :=
  { s with
    prev := rawOf s.cfg .released
    idx := 0
    res := .noChange
    pc := { k := 0, ph := ((opAt s 0).bind entryPhase).getD .B0 }
    pr := none
    hist := []
    evtPress := false
    status := .launch }

end Sys2Proof.Machine
end

