-- ==== Sys2Proof/Machine/Bringup.lean ====
section
/-! DEFINITION. The bring-up family: BOOT and the five configuration primitives (43_bringup.md). What the
collaborator does with a configuration primitive is out of scope (00_scope.md R4; log 24). -/

namespace Sys2Proof.Machine

/-- `BOOT`, the six steps of 43_bringup.md R100. -/
def execBoot (s : State) : Result :=
  match s.pc.ph with
  | .B0 => .next (goto .B1 (emit (.cfgdir s.cfg.btnPin false) s))
  | .B1 => .next (goto .B2 (emit (.cfgdir s.cfg.pwmPin true) s))
  | .B2 => .next (goto .B3 (emit (.cfgpu s.cfg.btnPin s.cfg.pullupEn) s))
  | .B3 => .next (goto .B4 (emit (.selclk s.cfg.clkSource s.cfg.clkHz) s))
  | .B4 => .next (goto .B5 (emit (.cfgpwm s.cfg.onTimeUs s.cfg.timerSource) s))
  | .B5 =>
    match tableRead s.cfg 0 with
    | some v => .next (complete (armTimer v s.cfg.prescaler s))
    | none => .refused .emptyTable
  | .S | .D | .W | .A => .refused .unreachablePhase

/-- `CFGDIR` (43_bringup.md R95), with the arguments of 30_encoding.md R52. -/
def execCfgdir (s : State) : Result := .next (emit (.cfgdir (cfgdirArgs s).1 (cfgdirArgs s).2) s)

/-- `CFGPU` (43_bringup.md R96, R100; 30_encoding.md R52). -/
def execCfgpu (s : State) : Result := .next (emit (.cfgpu s.cfg.btnPin s.cfg.pullupEn) s)

/-- `SELCLK` (43_bringup.md R97; 30_encoding.md R52). -/
def execSelclk (s : State) : Result := .next (emit (.selclk s.cfg.clkSource s.cfg.clkHz) s)

/-- `CFGPWM` (43_bringup.md R98; 30_encoding.md R52). -/
def execCfgpwm (s : State) : Result := .next (emit (.cfgpwm s.cfg.onTimeUs s.cfg.timerSource) s)

/-- `ARMTMR` with `TABLE[0]` (43_bringup.md R99; 30_encoding.md R52). -/
def execArmtmr (s : State) : Result :=
  match tableRead s.cfg 0 with
  | some v => .next (armTimer v s.cfg.prescaler s)
  | none => .refused .emptyTable

end Sys2Proof.Machine
end

