-- ==== Sys2Proof/Machine/Debouncer.lean ====
section
/-! DEFINITION. The Button Debouncer family: POLL, READPIN, DELAY (40_debouncer.md). -/

namespace Sys2Proof.Machine

/-- `POLL`, one phase a step (40_debouncer.md R62 to R65, 42_main_loop.md R88). -/
def execPoll (s : State) : Result :=
  match s.pc.ph with
  | .S => .next (phaseS s)
  | .D => .next (phaseD s)
  | .W => .next (phaseW complete s)
  | .B0 | .B1 | .B2 | .B3 | .B4 | .B5 | .A => .refused .unreachablePhase

/-- `READPIN` (40_debouncer.md R67): one sample consumed and recorded. The returned bit goes to the transient `cur`,
which is no state (10_state.md R17); nothing else changes (95_test_vectors.md V12; log 9). -/
def execReadpin (s : State) : Result := .next (readPin s)

/-- `DELAY` (40_debouncer.md R68): the event, and nothing else changes (95_test_vectors.md V13; log 9). -/
def execDelay (s : State) : Result := .next (issueDelay s.cfg.debounceMs s)

end Sys2Proof.Machine
end

