-- ==== Sys2Proof/Machine/MainLoop.lean ====
section
/-! DEFINITION. The main control loop family: LOOP (42_main_loop.md). -/

namespace Sys2Proof.Machine

/-- `LOOP`: the phases of `POLL`, and where `POLL` would complete with `Press` the phase `A` instead
(42_main_loop.md R86 to R88). -/
def execLoop (s : State) : Result :=
  match s.pc.ph with
  | .S => .next (phaseS s)
  | .D => .next (phaseD s)
  | .W => .next (phaseW (goto .A) s)
  | .A => phaseA s
  | .B0 | .B1 | .B2 | .B3 | .B4 | .B5 => .refused .unreachablePhase

end Sys2Proof.Machine
end

