-- ==== Sys2Proof/Machine/Reserved.lean ====
section
/-! DEFINITION. The four reserved codes, which name no operation (30_encoding.md R55). -/

namespace Sys2Proof.Machine

/-- `refuse(ReservedOp k)` at the position being executed (30_encoding.md R55, 60_exceptions.md R112). -/
def refuseReserved (s : State) : Result := .refused (.reservedOp s.pc.k)

/-- Code 0xC (30_encoding.md R55). -/
def execReservedC (s : State) : Result := refuseReserved s

/-- Code 0xD (30_encoding.md R55). -/
def execReservedD (s : State) : Result := refuseReserved s

/-- Code 0xE (30_encoding.md R55). -/
def execReservedE (s : State) : Result := refuseReserved s

/-- Code 0xF (30_encoding.md R55). -/
def execReservedF (s : State) : Result := refuseReserved s

end Sys2Proof.Machine
end

