-- ==== Sys2Proof/Machine/Selector.lean ====
section
/-! DEFINITION. The Frequency Selector family: ADVANCE, SETPR (41_selector.md). -/

namespace Sys2Proof.Machine

/-- `ADVANCE`, the single step `A` (41_selector.md R76, R77). -/
def execAdvance (s : State) : Result :=
  match s.pc.ph with
  | .A => phaseA s
  | .B0 | .B1 | .B2 | .B3 | .B4 | .B5 | .S | .D | .W => .refused .unreachablePhase

/-- `SETPR` with its argument `TABLE[idx]` (41_selector.md R80, 30_encoding.md R52; log 9). An index outside the table
has no entry (20_memory.md R31) and is an ill-formed state (10_state.md R29; log 25). -/
def execSetpr (s : State) : Result :=
  match tableRead s.cfg s.idx with
  | some v => .next (setPeriod v s)
  | none => .refused .indexOutOfRange

end Sys2Proof.Machine
end

