-- ==== Sys2Proof/Machine/Dispatch.lean ====
section
/-! DEFINITION. The meaning of each instruction, one arm a constructor. -/

namespace Sys2Proof.Machine

def exec (i : Instr) (s : State) : Host.Outcome State Fault Refusal :=
  match i with
  | .cfgdir => Sys2Proof.Machine.execCfgdir s
  | .cfgpu => Sys2Proof.Machine.execCfgpu s
  | .selclk => Sys2Proof.Machine.execSelclk s
  | .cfgpwm => Sys2Proof.Machine.execCfgpwm s
  | .armtmr => Sys2Proof.Machine.execArmtmr s
  | .setpr => Sys2Proof.Machine.execSetpr s
  | .readpin => Sys2Proof.Machine.execReadpin s
  | .delay => Sys2Proof.Machine.execDelay s
  | .poll => Sys2Proof.Machine.execPoll s
  | .advance => Sys2Proof.Machine.execAdvance s
  | .loop => Sys2Proof.Machine.execLoop s
  | .boot => Sys2Proof.Machine.execBoot s
  | .reservedC => Sys2Proof.Machine.execReservedC s
  | .reservedD => Sys2Proof.Machine.execReservedD s
  | .reservedE => Sys2Proof.Machine.execReservedE s
  | .reservedF => Sys2Proof.Machine.execReservedF s

end Sys2Proof.Machine
end

