-- ==== Sys2Proof/Machine/Launch.lean ====
section
/-! DEFINITION. The checks made before the first step of a run (60_exceptions.md R112): the stream, the configuration,
the launch state. Where several reasons apply, the first in R112's own order is given (log 12). -/

namespace Sys2Proof.Machine

/-- Why an operation may not stand at position `k` of a stream (30_encoding.md R55, R56). -/
def elementRefusal (k : Nat) (i : Instr) : Option Refusal :=
  if i.streamLegal then none
  else if i.isReserved then some (.reservedOp k)
  else some (.primitiveInStream k)

/-- The first ill-formed element from position `k` on. -/
def streamRefusal (k : Nat) : List OpWord → Option Refusal
  | [] => none
  | w :: ws =>
    match elementRefusal k (decode w) with
    | some r => some r
    | none => streamRefusal (k + 1) ws

/-- The first entry above `max`, counted from `i` (00_scope.md R7). -/
def firstTooLarge (max i : Nat) : List Nat → Option Nat
  | [] => none
  | v :: vs => if max < v then some i else firstTooLarge max (i + 1) vs

/-- The first entry not smaller than the one before it; `i` is the position of the list's second entry (41_selector.md R84). -/
def firstNotDecreasing (i : Nat) : List Nat → Option Nat
  | [] => none
  | [_] => none
  | a :: b :: rest => if a ≤ b then some i else firstNotDecreasing (i + 1) (b :: rest)

/-- Why a configuration is refused (60_exceptions.md R112): `EmptyTable`, `EntryTooLarge i`, `TableNotDecreasing i`. -/
def configRefusal (c : Config) : Option Refusal :=
  if c.table.isEmpty then some .emptyTable
  else match firstTooLarge c.prMax 0 c.table with
    | some i => some (.entryTooLarge i)
    | none =>
      match firstNotDecreasing 1 c.table with
      | some i => some (.tableNotDecreasing i)
      | none => none

/-- Why a launch state is refused (10_state.md R29, 60_exceptions.md R112): `IndexOutOfRange`, `MidOperationLaunch`; a
stream without an operation at `k` has no run to launch (log 11). -/
def boundaryRefusal (s : State) : Option Refusal :=
  if s.cfg.tableLen ≤ s.idx then some .indexOutOfRange
  else match currentOp s with
    | none => some .ended
    | some o => if entryPhase o = some s.pc.ph then none else some .midOperationLaunch

/-- Every check made before the first step (60_exceptions.md R112), in its order. -/
def launchRefusal (s : State) : Option Refusal :=
  match streamRefusal 0 s.prog.words with
  | some r => some r
  | none =>
    match configRefusal s.cfg with
    | some r => some r
    | none => boundaryRefusal s

/-- Whether a step is enabled (60_exceptions.md R112): the checks of a launch once, nothing while running, and no step
after the end. -/
def admission (s : State) : Option Refusal :=
  match s.status with
  | .launch => launchRefusal s
  | .running => none
  | .ended => some .ended

end Sys2Proof.Machine
end

