-- ==== Sys2Proof/Machine/Sequencer.lean ====
section
/-! DEFINITION. What happens at one rising clock edge: the input pins, reset, the handshake, the fetch, and the one
operation phase that is executed (20_memory.md R45; 42_main_loop.md R88; 70_reset_and_hazards.md R125). Also how an
operation word is put where the next step runs it. -/

namespace Sys2Proof.Machine

/-- The event-level edge: `rst` low and `prim_ack` high (20_memory.md R45, R46). -/
def PortIn.accept : PortIn := { rst := false, ack := true }

/-- The input pins at this edge; none listed is an accepting edge (log 16). -/
def portsNow (s : State) : PortIn := s.inputs.headD PortIn.accept

/-- What every edge does first: the pins listed for it are used up, and `evt_press`, high for one cycle, falls
(20_memory.md R44). -/
def beginEdge (s : State) : State := { s with inputs := s.inputs.tail, evtPress := false }

/-- Fetch and execute (42_main_loop.md R88): the operation at `k`, in its phase. An element that is no sequencer
operation is refused (30_encoding.md R55, R56; log 26). Fetching is no step of its own. -/
def runOp (s : State) : Result :=
  match currentOp s with
  | none => .refused .ended
  | some i =>
    match elementRefusal s.pc.k i with
    | some r => .refused r
    | none => exec i s

/-- One rising clock edge (20_memory.md R44, R45): reset wins (60_exceptions.md R111, 70_reset_and_hazards.md R125) and
records no event; then admission; then the pending request waits while `prim_ack` is low, and is the step when it is high. -/
def clockEdge (p : PortIn) (s : State) : Result :=
  if p.rst then .next (applyReset s)
  else match admission s with
    | some r => .refused r
    | none =>
      if p.ack then runOp { s with status := .running }
      else .next { s with status := .running }

/-- The stream operation that issues a primitive, or the operation itself (30_encoding.md R52, column "issued by"). -/
def carrier : Instr → Instr
  | .cfgdir | .cfgpu | .selclk | .cfgpwm | .armtmr => .boot
  | .setpr => .advance
  | .readpin | .delay => .poll
  | .poll => .poll
  | .advance => .advance
  | .loop => .loop
  | .boot => .boot
  | .reservedC => .reservedC
  | .reservedD => .reservedD
  | .reservedE => .reservedE
  | .reservedF => .reservedF

/-- The phase in which the carrier issues it, or the operation's entry phase (30_encoding.md R52, 42_main_loop.md R88). -/
def carrierPhase : Instr → Phase
  | .cfgdir => .B0
  | .cfgpu => .B2
  | .selclk => .B3
  | .cfgpwm => .B4
  | .armtmr => .B5
  | .setpr => .A
  | .readpin => .S
  | .delay => .D
  | .poll | .loop => .S
  | .advance => .A
  | .boot => .B0
  | .reservedC | .reservedD | .reservedE | .reservedF => .B0

/-- The state whose very next step runs the instruction `i` (log 10). A sequencer operation, or a reserved code, is the
stream's word at `k`, with `pc` at its entry phase. A primitive is no element of a stream (30_encoding.md R56): the block
runs it by being in the phase that issues it, so the stream's word at `k` becomes the operation that issues it and `ph`
the issuing phase. The run is launched and the next edge accepts. -/
def placeInstr (i : Instr) (s : State) : State :=
  { s with
    prog := s.prog.place s.pc.k (encode (carrier i))
    pc := { s.pc with ph := carrierPhase i }
    inputs := PortIn.accept :: s.inputs
    status := .running }

end Sys2Proof.Machine
end

