-- ==== Sys2Proof/Machine/Step.lean ====
section
/-! DEFINITION. One step of the machine: one rising clock edge of the block. -/

namespace Sys2Proof.Machine

/-- One step: the edge whose input pins `inputs` lists first. With `rst` low and `prim_ack` high, which is what an empty
list reads as, it is the step of 00_scope.md R12: exactly one primitive is issued and recorded. -/
def step (s : State) : Host.Outcome State Fault Refusal := clockEdge (portsNow s) (beginEdge s)

/-- `s` with the instruction of the word `w` (its low four bits, log 23) where the next step runs it (log 10). -/
def State.withFetchWord (s : State) (_nbits w : Nat) : State := placeInstr (decode (BitVec.ofNat 4 w)) s

end Sys2Proof.Machine
end

