-- ==== Sys2Proof/Machine/Formula.lean ====
section
/-! DEFINITION. The conversion formula that ties the table to frequencies: a constraint on a configuration, no operation
of the block (41_selector.md R83). -/

namespace Sys2Proof.Machine

/-- `PeriodOf(F) = floor(C / (4 * P * F)) - 1`; no value unless `P`, `F` are positive and `C >= 4 * P * F`
(41_selector.md R83). -/
def periodOf (c p f : Nat) : Option Nat :=
  if 0 < 4 * p * f ∧ 4 * p * f ≤ c then some (c / (4 * p * f) - 1) else none

/-- `FreqOf(period) = C / (4 * (period + 1) * P)`, a rational number (41_selector.md R83). -/
def freqOf (c p period : Nat) : ℚ := (c : ℚ) / (4 * ((period : ℚ) + 1) * (p : ℚ))

/-- `TABLE[i] = PeriodOf(FREQ[i])` for every `i`, with `C = CLK_HZ` and `P = PRESCALER` (41_selector.md R83). -/
def tableMatchesFreq (c : Config) : Bool :=
  c.freq.map (periodOf c.clkHz c.prescaler) == c.table.map some

/-- Every constraint of 00_scope.md section 4's summary: each parameter's own, and the tie of the table to the
frequencies (log 21). -/
def meetsSectionFour (c : Config) : Bool := c.wf && tableMatchesFreq c

end Sys2Proof.Machine
end

