-- ==== Sys2Proof/Machine/Ports.lean ====
section
/-! DEFINITION. The block's ports as functions of its state, and the form an event has on them (20_memory.md R44, R45,
R47; 30_encoding.md R49, R51, R52). -/

namespace Sys2Proof.Machine

/-- The primitive an operation issues in a phase (30_encoding.md R52 with 42_main_loop.md R88). Every pair without one
is unreachable. -/
def issuedPrimitive : Instr → Phase → Option Instr
  | .boot, .B0 => some .cfgdir
  | .boot, .B1 => some .cfgdir
  | .boot, .B2 => some .cfgpu
  | .boot, .B3 => some .selclk
  | .boot, .B4 => some .cfgpwm
  | .boot, .B5 => some .armtmr
  | .poll, .S => some .readpin
  | .poll, .D => some .delay
  | .poll, .W => some .readpin
  | .loop, .S => some .readpin
  | .loop, .D => some .delay
  | .loop, .W => some .readpin
  | .loop, .A => some .setpr
  | .advance, .A => some .setpr
  | _, _ => none

/-- A boolean argument: 0 for false, 1 for true (30_encoding.md R51). -/
def boolArg (b : Bool) : Nat := if b then 1 else 0

/-- An event as it stands on the interface: `{op, a, b}`, and for `READPIN` the returned bit (30_encoding.md R49). -/
structure BusEvent where
  op : OpWord
  a : Nat
  b : Nat
  r : Option Bit
  deriving DecidableEq, Repr

/-- The primitive an event records. -/
def Event.instr : Event → Instr
  | .cfgdir _ _ => .cfgdir
  | .cfgpu _ _ => .cfgpu
  | .selclk _ _ => .selclk
  | .cfgpwm _ _ => .cfgpwm
  | .armtmr _ _ => .armtmr
  | .setpr _ => .setpr
  | .readpin _ => .readpin
  | .delay _ => .delay

/-- The event's form on the interface (30_encoding.md R49, R51, R52). -/
def Event.bus (c : Config) : Event → BusEvent
  | .cfgdir pin out => { op := encode .cfgdir, a := pin, b := boolArg out, r := none }
  | .cfgpu pin en => { op := encode .cfgpu, a := pin, b := boolArg en, r := none }
  | .selclk src hz => { op := encode .selclk, a := src, b := hz, r := none }
  | .cfgpwm us tsrc => { op := encode .cfgpwm, a := us, b := tsrc, r := none }
  | .armtmr v p => { op := encode .armtmr, a := v, b := p, r := none }
  | .setpr v => { op := encode .setpr, a := v, b := 0, r := none }
  | .readpin bit => { op := encode .readpin, a := c.btnPin, b := 0, r := some bit }
  | .delay ms => { op := encode .delay, a := ms, b := 0, r := none }

/-- The event read back from its form on the interface. -/
def Event.ofBus (e : BusEvent) : Option Event :=
  match decode e.op, e.r with
  | .cfgdir, none => some (.cfgdir e.a (e.b == 1))
  | .cfgpu, none => some (.cfgpu e.a (e.b == 1))
  | .selclk, none => some (.selclk e.a e.b)
  | .cfgpwm, none => some (.cfgpwm e.a e.b)
  | .armtmr, none => some (.armtmr e.a e.b)
  | .setpr, none => some (.setpr e.a)
  | .readpin, some bit => some (.readpin bit)
  | .delay, none => some (.delay e.a)
  | _, _ => none

/-- `{op[3:0], a[ARG_W-1:0], b[ARG_W-1:0]}` as one number (30_encoding.md R49). -/
def BusEvent.pack (argW : Nat) (e : BusEvent) : Nat :=
  (e.op.toNat * 2 ^ argW + e.a % 2 ^ argW) * 2 ^ argW + e.b % 2 ^ argW

/-- The fields of the packed number, with the returned bit beside it. -/
def BusEvent.unpack (argW : Nat) (v : Nat) (r : Option Bit) : BusEvent :=
  { op := BitVec.ofNat 4 (v / 2 ^ argW / 2 ^ argW)
    a := v / 2 ^ argW % 2 ^ argW
    b := v % 2 ^ argW
    r := r }

/-- A request on the interface: `prim_sel`, `prim_a`, `prim_b` (20_memory.md R44). -/
structure Request where
  sel : BitVec 3
  a : Nat
  b : Nat
  deriving DecidableEq, Repr

/-- The request with its arguments in `ARG_W` bits (30_encoding.md R51; log 21). -/
def Request.of (c : Config) (p : Instr) (a b : Nat) : Request :=
  { sel := OpWord.sel (encode p), a := a % 2 ^ c.argW, b := b % 2 ^ c.argW }

/-- The arguments presented with the primitive an operation issues in a phase (30_encoding.md R52). The argument of
`SETPR` is the entry at the new index (41_selector.md R77). An empty table has no argument for `ARMTMR` or `SETPR`. -/
def issueArgs (s : State) : Instr → Option (Nat × Nat)
  | .cfgdir => some ((cfgdirArgs s).1, boolArg (cfgdirArgs s).2)
  | .cfgpu => some (s.cfg.btnPin, boolArg s.cfg.pullupEn)
  | .selclk => some (s.cfg.clkSource, s.cfg.clkHz)
  | .cfgpwm => some (s.cfg.onTimeUs, s.cfg.timerSource)
  | .armtmr => (tableRead s.cfg 0).map fun v => (v, s.cfg.prescaler)
  | .setpr => (tableRead s.cfg (nextIdx s.cfg s.idx)).map fun v => (v, 0)
  | .readpin => some (s.cfg.btnPin, 0)
  | .delay => some (s.cfg.debounceMs, 0)
  | .poll | .advance | .loop | .boot => none
  | .reservedC | .reservedD | .reservedE | .reservedF => none

/-- The request on the ports before the coming edge (20_memory.md R45); `none` is `prim_req` low: `rst` is high, the run
has ended or is refused, or there is nothing legal to issue. A pending request is dropped by reset (70_reset_and_hazards.md
R125). DESIGN CHOICE (log 30): `prim_req` is low exactly as long as `rst` is high, and the first cycle with `rst` low
presents the first request of `PROG[0]`; the spec says that it falls and not for how long. DESIGN CHOICE (log 32): after an
accepted edge the next request is presented in the following cycle, with no low cycle between two requests; 20_memory.md R45
allows either. -/
def request (s : State) : Option Request :=
  if (portsNow s).rst then none
  else match admission s with
    | some _ => none
    | none => (currentOp s).bind fun o => (issuedPrimitive o s.pc.ph).bind fun p =>
        (issueArgs s p).map fun ab => Request.of s.cfg p ab.1 ab.2

/-- The bit on `prim_rdata`: the pin sample, valid where `prim_ack` is high for a `READPIN` (20_memory.md R44, R45;
30_encoding.md R49); `none` where it is not valid and ignored (log 31). -/
def primRdata (s : State) : Option Bit :=
  match request s with
  | some q => if (portsNow s).ack && q.sel == OpWord.sel (encode .readpin) then some (nextSample s) else none
  | none => none

/-- The input ports (20_memory.md R44); `clk` is the step itself. -/
structure PortsIn where
  rst : Bool
  primAck : Bool
  primRdata : Option Bit
  deriving DecidableEq, Repr

/-- The inputs at the coming edge: `rst` and `prim_ack` from the list of pins, `prim_rdata` from the pin oracle. -/
def portsIn (s : State) : PortsIn :=
  { rst := (portsNow s).rst
    primAck := (portsNow s).ack
    primRdata := primRdata s }

/-- The output ports (20_memory.md R44, R47). -/
structure PortOut where
  primReq : Bool
  request : Option Request
  evtPress : Bool
  dbgIdx : Nat
  dbgPrev : Bit
  deriving DecidableEq, Repr

/-- The outputs in a state: the request, and the taps that expose `res = Press` at completion, `idx` and `prev`. -/
def portsOut (s : State) : PortOut :=
  { primReq := (request s).isSome
    request := request s
    evtPress := s.evtPress
    dbgIdx := s.idx
    dbgPrev := s.prev }

end Sys2Proof.Machine
end

