-- ==== Sys2Proof/Machine/Script.lean ====
section
/-! DEFINITION. The stream and script syntax (30_encoding.md R59, R60), read from characters (log 28). -/

namespace Sys2Proof.Machine

/-- An item of a written stream: an operation, `OP * n`, or `AUTO` (30_encoding.md R59, R60). -/
inductive Item where
  | one (i : Instr)
  | times (i : Instr) (n : Nat)
  | auto
  deriving DecidableEq, Repr

/-- The stream a list of items stands for: `OP * n` is `n` copies, `AUTO` is `BOOT` and then `LOOP` without end, after
which nothing is reached (30_encoding.md R60). -/
def expand : List Item → Prog
  | [] => { words := [], thenLoops := false }
  | .one i :: rest => { expand rest with words := encode i :: (expand rest).words }
  | .times i n :: rest => { expand rest with words := List.replicate n (encode i) ++ (expand rest).words }
  | .auto :: _ => Prog.auto

/-- The mnemonic of the operation table (30_encoding.md R50). -/
def mnemonic : Instr → String
  | .cfgdir => "CFGDIR"
  | .cfgpu => "CFGPU"
  | .selclk => "SELCLK"
  | .cfgpwm => "CFGPWM"
  | .armtmr => "ARMTMR"
  | .setpr => "SETPR"
  | .readpin => "READPIN"
  | .delay => "DELAY"
  | .poll => "POLL"
  | .advance => "ADVANCE"
  | .loop => "LOOP"
  | .boot => "BOOT"
  | .reservedC => "RESERVED_C"
  | .reservedD => "RESERVED_D"
  | .reservedE => "RESERVED_E"
  | .reservedF => "RESERVED_F"

/-- The operation a written stream may name: one of the four sequencer operations (30_encoding.md R59). -/
def streamMnemonic? (t : List Char) : Option Instr :=
  [Instr.poll, .advance, .loop, .boot].find? fun i => (mnemonic i).toList == t

/-- The pieces of a text between the characters that `sep` picks out. -/
def splitChars (sep : Char → Bool) : List Char → List (List Char)
  | [] => [[]]
  | c :: cs =>
    match splitChars sep cs with
    | [] => [[c]]
    | w :: ws => if sep c then [] :: w :: ws else (c :: w) :: ws

/-- The non-empty words of a piece of text. -/
def wordsOf (t : List Char) : List (List Char) := (splitChars (· == ' ') t).filter fun w => !w.isEmpty

/-- A decimal number, most significant digit first. -/
def number? (t : List Char) : Option Nat :=
  if t.isEmpty || !t.all Char.isDigit then none
  else some (t.foldl (fun n d => n * 10 + (d.toNat - '0'.toNat)) 0)

/-- One written item (30_encoding.md R59, R60). -/
def item? : List (List Char) → Option Item
  | [m] => if m == "AUTO".toList then some .auto else (streamMnemonic? m).map .one
  | [m, star, n] =>
    if star == ['*'] then (streamMnemonic? m).bind fun i => (number? n).map (.times i) else none
  | _ => none

/-- A written stream: items separated by `;` or newlines (30_encoding.md R59). -/
def parseStream (t : List Char) : Option Prog :=
  (((splitChars (fun c => c == ';' || c == '\n') t).map wordsOf).filter (fun w => !w.isEmpty)).mapM item? |>.map expand

/-- The hexadecimal digit of an operation word (30_encoding.md R59). -/
def hexDigit (w : OpWord) : Char :=
  if w.toNat < 10 then Char.ofNat ('0'.toNat + w.toNat) else Char.ofNat ('A'.toNat + (w.toNat - 10))

/-- The operation word of a hexadecimal digit (30_encoding.md R59). -/
def ofHexDigit (c : Char) : Option OpWord :=
  if '0' ≤ c ∧ c ≤ '9' then some (BitVec.ofNat 4 (c.toNat - '0'.toNat))
  else if 'A' ≤ c ∧ c ≤ 'F' then some (BitVec.ofNat 4 (c.toNat - 'A'.toNat + 10))
  else none

/-- A list of words as a string of digits, first operation first (30_encoding.md R59). -/
def hexOf (ws : List OpWord) : List Char := ws.map hexDigit

/-- The words of a string of digits (30_encoding.md R59). -/
def ofHex (t : List Char) : Option (List OpWord) := t.mapM ofHexDigit

/-- One raw bit as written in a `PIN:` line. -/
def bit? : List Char → Option Bit
  | ['0'] => some false
  | ['1'] => some true
  | _ => none

/-- The samples of a `PIN:` line; a last bit written `b*` repeats for ever (30_encoding.md R59). -/
def pinBits? : List (List Char) → Option PinScript
  | [] => some { bits := [], rest := none }
  | [[c, '*']] => (bit? [c]).map fun b => { bits := [], rest := some b }
  | t :: ts => (bit? t).bind fun b => (pinBits? ts).map fun p => { p with bits := b :: p.bits }

/-- One level as written in a `LEVELS:` line, converted by `RawOf` (30_encoding.md R59). -/
def levelBit? (c : Config) : List Char → Option Bit
  | ['r'] => some (rawOf c .released)
  | ['p'] => some (rawOf c .pressed)
  | _ => none

/-- A pin line: `PIN: b0 b1 ...` in raw bits or `LEVELS: r p ...` in levels (30_encoding.md R59). -/
def parsePins (c : Config) (t : List Char) : Option PinScript :=
  match wordsOf t with
  | [] => none
  | key :: rest =>
    if key == "PIN:".toList then pinBits? rest
    else if key == "LEVELS:".toList then
      (rest.mapM (levelBit? c)).map fun bs => { bits := bs, rest := none }
    else none

/-- A state as reset leaves it, at a given configuration, stream and pin oracle: the start state of a script
(95_test_vectors.md part 3). -/
def State.start (c : Config) (p : Prog) (pin : PinScript) : State :=
  let s : State := { State.reset with cfg := c, prog := p, pin := pin, prev := rawOf c .released }
  { s with pc := { k := 0, ph := ((opAt s 0).bind entryPhase).getD .B0 } }

end Sys2Proof.Machine
end

