-- ==== Sys2Proof/Safety.lean ====
section
/-! DEFINITION. What counts as a safe run, and the relations the statements about whole runs are made in. -/

namespace Sys2Proof.Machine

/-- `n` steps from `s`, stopping at the first refusal. -/
def runFor (n : Nat) (s : State) : Host.Outcome State Fault Refusal := Host.Core.run Sys2Proof.core n s

/-- The block is stepping at the event level (00_scope.md R12): launched, and every coming edge has `rst` low and
`prim_ack` high. -/
structure Stepping (s : State) : Prop where
  running : s.status = .running
  accepting : s.inputs = []

/-- The parameters of a run are legal (60_exceptions.md R112): the configuration, every word of the stream, and a stream
with an operation at position 0. -/
structure LegalParams (s : State) : Prop where
  config : s.cfg.legal = true
  stream : ∀ w ∈ s.prog.words, (decode w).streamLegal = true
  start : (opAt s 0).isSome = true

/-- The operation at `k` issues a primitive in this phase: one of the pairs of 42_main_loop.md R88. -/
def ReachablePair (s : State) : Prop :=
  ∃ o p, currentOp s = some o ∧ issuedPrimitive o s.pc.ph = some p

/-- `pc` is at an operation boundary (10_state.md R28, R29). -/
def AtBoundary (s : State) : Prop := ∃ o, currentOp s = some o ∧ entryPhase o = some s.pc.ph

/-- The invariant of a well-formed run: legal parameters, `0 <= idx < TABLE_LEN` (10_state.md R28 (a)), and `pc` where a
run in this status can be. -/
structure RunSafe (s : State) : Prop where
  params : LegalParams s
  index : s.idx < s.cfg.tableLen
  atLaunch : s.status = .launch → AtBoundary s
  atRunning : s.status = .running → ReachablePair s

/-- What a reader of `hist` can compute (70_reset_and_hazards.md R126). -/
structure Shadow where
  prev : Bit
  waiting : Bool
  idx : Nat
  pr : Option Nat
  deriving DecidableEq, Repr

/-- The reset values (10_state.md R26). -/
def Shadow.init (c : Config) : Shadow := { prev := rawOf c .released, waiting := false, idx := 0, pr := none }

/-- One event read: a `READPIN` outside a wait is the first sample of a poll; a `DELAY` begins a wait and a `Released`
sample ends it; a `SETPR` moves the index and a `SETPR` or `ARMTMR` the period (70_reset_and_hazards.md R126). -/
def Shadow.read (c : Config) (h : Shadow) : Event → Shadow
  | .readpin b =>
    if h.waiting then { h with waiting := levelOf c b == .pressed } else { h with prev := b }
  | .delay _ => { h with waiting := true }
  | .setpr v => { h with idx := (h.idx + 1) % c.tableLen, pr := some v }
  | .armtmr v _ => { h with pr := some v }
  | .cfgdir _ _ | .cfgpu _ _ | .selclk _ _ | .cfgpwm _ _ => h

/-- `prev`, `idx` and `PR` are what the event history and the reset values say (70_reset_and_hazards.md R126), and the
block waits for a release exactly where the history is inside a wait. -/
def HistDetermines (s : State) : Prop :=
  let h := s.hist.foldl (Shadow.read s.cfg) (Shadow.init s.cfg)
  h.prev = s.prev ∧ h.idx = s.idx ∧ h.pr = s.pr ∧
    h.waiting = (decide (s.status = .running) && decide (s.pc.ph = .W))

/-- The six bring-up events of 43_bringup.md R100. -/
def bootEvents (c : Config) (v : Nat) : List Event :=
  [.cfgdir c.btnPin false, .cfgdir c.pwmPin true, .cfgpu c.btnPin c.pullupEn, .selclk c.clkSource c.clkHz,
   .cfgpwm c.onTimeUs c.timerSource, .armtmr v c.prescaler]

/-- How many of the six bring-up events have been issued when the phase is entered. -/
def bootPhaseNumber : Phase → Option Nat
  | .B0 => some 0
  | .B1 => some 1
  | .B2 => some 2
  | .B3 => some 3
  | .B4 => some 4
  | .B5 => some 5
  | .S | .D | .W | .A => none

/-- The events of an iteration with a press, up to and without the sample that saw the release: `m` samples read
Pressed while waiting (42_main_loop.md R92). -/
def pressPart (c : Config) (m : Nat) : List Event :=
  [.readpin (rawOf c .pressed), .delay c.debounceMs] ++ List.replicate m (.readpin (rawOf c .pressed))

/-- A concatenation of whole iterations of the main loop with `j` presses, after which the stored level is the last
argument (42_main_loop.md R92): each iteration is one sample without an edge against the level stored before it, or a press,
which needs the released level stored, and whose `SETPR` carries the entry at the new index. -/
inductive Iterations (c : Config) : Nat → List Event → Bit → Prop
  | start : Iterations c 0 [] (rawOf c .released)
  | idle (j : Nat) (tr : List Event) (old x : Bit) : Iterations c j tr old →
      ¬ (levelOf c old = .released ∧ levelOf c x = .pressed) → Iterations c j (tr ++ [.readpin x]) x
  | press (j : Nat) (tr : List Event) (old : Bit) (m v : Nat) : Iterations c j tr old → levelOf c old = .released →
      tableRead c ((j + 1) % c.tableLen) = some v →
      Iterations c (j + 1) (tr ++ pressPart c m ++ [.readpin (rawOf c .released), .setpr v]) (rawOf c .pressed)

/-- The events of the iteration in progress, by phase, and the level stored before it and now (42_main_loop.md R87, R92). -/
inductive InProgress (c : Config) : Bit → Phase → List Event → Bit → Prop
  | sample (old : Bit) : InProgress c old .S [] old
  | delay (old : Bit) : levelOf c old = .released → InProgress c old .D [.readpin (rawOf c .pressed)] (rawOf c .pressed)
  | wait (old : Bit) (m : Nat) : levelOf c old = .released → InProgress c old .W (pressPart c m) (rawOf c .pressed)
  | advance (old : Bit) (m : Nat) : levelOf c old = .released →
      InProgress c old .A (pressPart c m ++ [.readpin (rawOf c .released)]) (rawOf c .pressed)

/-- Under `AUTO` the history is the bring-up and then whole iterations and the one in progress; the index is the number
of presses modulo the table length, `prev` is the level the history stored last, and after the bring-up `PR = TABLE[idx]`
(42_main_loop.md R89, R92; 10_state.md R28 (b)). -/
def AutoTrace (s : State) : Prop :=
  s.prog = Prog.auto ∧
  ((s.pc.k = 0 ∧ s.idx = 0 ∧ s.prev = rawOf s.cfg .released ∧ s.pr = none ∧
      ∃ n v, bootPhaseNumber s.pc.ph = some n ∧ tableRead s.cfg 0 = some v ∧ s.hist = (bootEvents s.cfg v).take n) ∨
   (1 ≤ s.pc.k ∧ s.status = .running ∧ ∃ j tr old part v,
      Iterations s.cfg j tr old ∧ InProgress s.cfg old s.pc.ph part s.prev ∧ tableRead s.cfg 0 = some v ∧
      s.hist = bootEvents s.cfg v ++ tr ++ part ∧ s.idx = j % s.cfg.tableLen ∧ tableRead s.cfg s.idx = s.pr))

/-- In phases `D` and `W` the stored level is Pressed (40_debouncer.md R63). -/
def PressedWhileWaiting (s : State) : Prop :=
  s.status = .running → (s.pc.ph = .D ∨ s.pc.ph = .W) → levelOf s.cfg s.prev = .pressed

/-- The state without the two pieces the block never reads, and the tap nothing reads (10_state.md R21, R24; 20_memory.md R47). -/
def unobserved (s : State) : State := { s with hist := [], pr := none, evtPress := false }

end Sys2Proof.Machine
end

