-- ==== Sys2Proof/Certificates/Slice0/Obligations.lean ====
section
/-! DEFINITION. The statements for the provers. Results of operations are written as whole next states, so each of them
says its frame as well: what a record update does not name is unchanged. -/

open Sys2Proof Sys2Proof.Machine

/-! ## Encoding -/

/-- 30_encoding.md R50, R57: the sixteen words, bit by bit as `{cls, sel}`, decode to the instructions they stand for. -/
def Obligations.WrittenWordsDecode : Prop :=
  decode 0b0000#4 = .cfgdir ∧ decode 0b0001#4 = .cfgpu ∧ decode 0b0010#4 = .selclk ∧ decode 0b0011#4 = .cfgpwm ∧
  decode 0b0100#4 = .armtmr ∧ decode 0b0101#4 = .setpr ∧ decode 0b0110#4 = .readpin ∧ decode 0b0111#4 = .delay ∧
  decode 0b1000#4 = .poll ∧ decode 0b1001#4 = .advance ∧ decode 0b1010#4 = .loop ∧ decode 0b1011#4 = .boot ∧
  decode 0b1100#4 = .reservedC ∧ decode 0b1101#4 = .reservedD ∧ decode 0b1110#4 = .reservedE ∧
  decode 0b1111#4 = .reservedF

/-- 30_encoding.md R57: encoding and decoding are inverse to each other, both ways, and the class bit says which words
are primitives (R48). -/
def Obligations.DecodeInvertsEncode : Prop :=
  (∀ i, decode (encode i) = i) ∧ (∀ w, encode (decode w) = w) ∧ (∀ i, OpWord.cls (encode i) = !i.isPrimitive)

/-- 30_encoding.md R59: a stream written as hexadecimal digits, first operation first, reads back as the same words. -/
def Obligations.HexStreamReadsBack : Prop := ∀ ws : List OpWord, ofHex (hexOf ws) = some ws

/-- 30_encoding.md R49, R51, R52: an event packed as `{op, a, b}`, with the returned bit beside it, reads back as the same
event whenever its arguments fit `ARG_W` bits. -/
def Obligations.PackedEventReadsBack : Prop :=
  ∀ (c : Config) (e : Event), (e.bus c).a < 2 ^ c.argW → (e.bus c).b < 2 ^ c.argW →
    Event.ofBus (BusEvent.unpack c.argW (BusEvent.pack c.argW (e.bus c)) (e.bus c).r) = some e

/-- 30_encoding.md R53, R54: the codes of the result flag and of the phases are those of the tables and
read back, and each of the six unused phase codes becomes `B0`. -/
def Obligations.PhaseAndResultCodes : Prop :=
  (∀ r : PollResult, PollResult.ofCode r.code = r) ∧ PollResult.code .noChange = 0#1 ∧ PollResult.code .press = 1#1 ∧
  Phase.code .B0 = 0x0#4 ∧ Phase.code .B1 = 0x1#4 ∧ Phase.code .B2 = 0x2#4 ∧ Phase.code .B3 = 0x3#4 ∧
  Phase.code .B4 = 0x4#4 ∧ Phase.code .B5 = 0x5#4 ∧ Phase.code .S = 0x8#4 ∧ Phase.code .D = 0x9#4 ∧
  Phase.code .W = 0xA#4 ∧ Phase.code .A = 0xB#4 ∧ (∀ p : Phase, Phase.ofCode p.code = p) ∧
  (∀ w : BitVec 4, (∀ p : Phase, p.code ≠ w) → Phase.ofCode w = .B0)

/-- 30_encoding.md R60, 42_main_loop.md R89: `AUTO` has `BOOT` at position 0 and `LOOP` at every later one; `OP * n` is
`n` copies followed by the rest. That items written after `AUTO` are dropped is the model's choice (log 28). -/
def Obligations.PseudoOperationsExpand : Prop :=
  (Prog.auto.word? 0).map decode = some .boot ∧ (∀ k, (Prog.auto.word? (k + 1)).map decode = some .loop) ∧
  (∀ rest, expand (.auto :: rest) = Prog.auto) ∧
  (∀ i n rest k, k < n → (expand (.times i n :: rest)).word? k = some (encode i)) ∧
  (∀ i n rest k, (expand (.times i n :: rest)).word? (n + k) = (expand rest).word? k)

/-! ## The primitives -/

/-- 43_bringup.md R95: `CFGDIR` is 0x0, `BOOT` issues it in `B0` and `B1` and nothing else does, and it records its
arguments `(pin, asOutput)`, 1 for output, and changes nothing else. The argument values are those of R100; outside `B0` and
`B1` the model leaves open which of the two pairs it is (log 8). -/
def Obligations.CfgdirRecordsItsArguments : Prop :=
  encode .cfgdir = 0x0#4 ∧
  (∀ o ph, issuedPrimitive o ph = some .cfgdir ↔ o = .boot ∧ (ph = .B0 ∨ ph = .B1)) ∧
  (∀ c pin out, (Event.cfgdir pin out).bus c = { op := 0x0#4, a := pin, b := if out then 1 else 0, r := none }) ∧
  (∀ s : State, ∃ pin out, exec .cfgdir s = .next { s with hist := s.hist ++ [.cfgdir pin out] } ∧
    ((pin = s.cfg.btnPin ∧ out = false) ∨ (pin = s.cfg.pwmPin ∧ out = true))) ∧
  (∀ s : State, s.pc.ph = .B0 → exec .cfgdir s = .next { s with hist := s.hist ++ [.cfgdir s.cfg.btnPin false] }) ∧
  (∀ s : State, s.pc.ph = .B1 → exec .cfgdir s = .next { s with hist := s.hist ++ [.cfgdir s.cfg.pwmPin true] })

/-- 43_bringup.md R96 and R100: `CFGPU` is 0x1, issued in `B2` alone, records `(BTN_PIN, PULLUP_EN)` and changes nothing else. -/
def Obligations.CfgpuRecordsItsArguments : Prop :=
  encode .cfgpu = 0x1#4 ∧ (∀ o ph, issuedPrimitive o ph = some .cfgpu ↔ o = .boot ∧ ph = .B2) ∧
  (∀ c pin en, (Event.cfgpu pin en).bus c = { op := 0x1#4, a := pin, b := if en then 1 else 0, r := none }) ∧
  (∀ s : State, exec .cfgpu s = .next { s with hist := s.hist ++ [.cfgpu s.cfg.btnPin s.cfg.pullupEn] })

/-- 43_bringup.md R97, R98: `SELCLK` (0x2, issued in `B3` alone) and `CFGPWM` (0x3, issued in `B4` alone) record their
two arguments and change nothing else. -/
def Obligations.SelclkCfgpwmRecordTheirArguments : Prop :=
  encode .selclk = 0x2#4 ∧ encode .cfgpwm = 0x3#4 ∧
  (∀ o ph, issuedPrimitive o ph = some .selclk ↔ o = .boot ∧ ph = .B3) ∧
  (∀ o ph, issuedPrimitive o ph = some .cfgpwm ↔ o = .boot ∧ ph = .B4) ∧
  (∀ c src hz, (Event.selclk src hz).bus c = { op := 0x2#4, a := src, b := hz, r := none }) ∧
  (∀ c us tsrc, (Event.cfgpwm us tsrc).bus c = { op := 0x3#4, a := us, b := tsrc, r := none }) ∧
  (∀ s : State, exec .selclk s = .next { s with hist := s.hist ++ [.selclk s.cfg.clkSource s.cfg.clkHz] }) ∧
  (∀ s : State, exec .cfgpwm s = .next { s with hist := s.hist ++ [.cfgpwm s.cfg.onTimeUs s.cfg.timerSource] })

/-- 43_bringup.md R99: `ARMTMR` (0x4, issued in `B5` alone) records `(TABLE[0], PRESCALER)` and loads the period register. -/
def Obligations.ArmtmrLoadsEntryZero : Prop :=
  encode .armtmr = 0x4#4 ∧ (∀ o ph, issuedPrimitive o ph = some .armtmr ↔ o = .boot ∧ ph = .B5) ∧
  (∀ c v p, (Event.armtmr v p).bus c = { op := 0x4#4, a := v, b := p, r := none }) ∧
  (∀ (s : State) (v : Nat), s.cfg.table[0]? = some v →
    exec .armtmr s = .next { s with pr := some v, hist := s.hist ++ [.armtmr v s.cfg.prescaler] })

/-- 41_selector.md R80: `SETPR` (0x5, issued in phase `A` alone, illegal alone in a stream) records the whole value and sets `PR`, also when `PR`
holds that value already; with a legal configuration the value never exceeds `PR_MAX`. That a `SETPR` taken alone carries
`TABLE[idx]` of the `idx` it finds, with `pc` unmoved, is the model's choice (log 9). -/
def Obligations.SetprWritesPeriod : Prop :=
  encode .setpr = 0x5#4 ∧
  (∀ o ph, issuedPrimitive o ph = some .setpr ↔ (o = .advance ∨ o = .loop) ∧ ph = .A) ∧
  (∀ k, elementRefusal k .setpr = some (.primitiveInStream k)) ∧
  (∀ c v, (Event.setpr v).bus c = { op := 0x5#4, a := v, b := 0, r := none }) ∧
  (∀ (s : State) (v : Nat), s.cfg.table[s.idx]? = some v →
    exec .setpr s = .next { s with pr := some v, hist := s.hist ++ [.setpr v] }) ∧
  (∀ (s : State) (v : Nat), s.cfg.legal = true → s.cfg.table[s.idx]? = some v → v ≤ 2 ^ s.cfg.prWidth - 1)

/-- 20_memory.md R31 ("`TableRead(i)` with `i >= TABLE_LEN` has no meaning and never happens") and 60_exceptions.md R112: where
the table has no entry to read the model stops by name, which is its own choice (log 25). -/
def Obligations.MissingEntryIsRefused : Prop :=
  (∀ s : State, s.cfg.table[s.idx]? = none → exec .setpr s = .refused .indexOutOfRange) ∧
  (∀ s : State, s.cfg.table = [] → exec .armtmr s = .refused .emptyTable) ∧
  (∀ s : State, s.cfg.table = [] → s.pc.ph = .B5 → exec .boot s = .refused .emptyTable) ∧
  (∀ (i : Instr) (s : State), i = .advance ∨ i = .loop → s.cfg.table = [] → s.pc.ph = .A →
    exec i s = .refused .emptyTable)

/-- 40_debouncer.md R67: `READPIN` (0x6, issued in phases `S` and `W` alone, illegal alone in a stream) takes `BTN_PIN`
and 0 to the interface, records the raw sample `Pin(rd)`, counts the read, and changes nothing else; two reads in a row
take two samples, which may differ. -/
def Obligations.ReadpinConsumesOneSample : Prop :=
  encode .readpin = 0x6#4 ∧
  (∀ o ph, issuedPrimitive o ph = some .readpin ↔ (o = .poll ∨ o = .loop) ∧ (ph = .S ∨ ph = .W)) ∧
  (∀ k, elementRefusal k .readpin = some (.primitiveInStream k)) ∧
  (∀ c b, (Event.readpin b).bus c = { op := 0x6#4, a := c.btnPin, b := 0, r := some b }) ∧
  (∀ s : State, exec .readpin s =
    .next { s with rd := s.rd + 1, hist := s.hist ++ [.readpin (s.pin.sample s.rd)] }) ∧
  (∀ (s : State) (b0 b1 : Bit), s.pin.sample s.rd = b0 → s.pin.sample (s.rd + 1) = b1 →
    ∃ u, exec .readpin s = .next u ∧
      exec .readpin u = .next { s with rd := s.rd + 2, hist := s.hist ++ [.readpin b0] ++ [.readpin b1] })

/-- 40_debouncer.md R68: `DELAY` (0x7, issued in phase `D` alone, illegal alone in a stream) records `DEBOUNCE_MS`,
whatever its value, and changes nothing else. -/
def Obligations.DelayRecordsInterval : Prop :=
  encode .delay = 0x7#4 ∧
  (∀ o ph, issuedPrimitive o ph = some .delay ↔ (o = .poll ∨ o = .loop) ∧ ph = .D) ∧
  (∀ k, elementRefusal k .delay = some (.primitiveInStream k)) ∧
  (∀ c ms, (Event.delay ms).bus c = { op := 0x7#4, a := ms, b := 0, r := none }) ∧
  (∀ s : State, exec .delay s = .next { s with hist := s.hist ++ [.delay s.cfg.debounceMs] })

/-- 30_encoding.md R55: each reserved code names no operation; run at position `k` it is refused as `ReservedOp k`, and
no operation issues one. -/
def Obligations.ReservedCodesRefused : Prop :=
  ∀ i : Instr, i = .reservedC ∨ i = .reservedD ∨ i = .reservedE ∨ i = .reservedF →
    (∀ s : State, exec i s = .refused (.reservedOp s.pc.k)) ∧ (∀ k, elementRefusal k i = some (.reservedOp k)) ∧
    (∀ o ph, issuedPrimitive o ph ≠ some i)

/-! ## Completion and the pc -/

/-- 42_main_loop.md R88, R90: completion moves `pc` to the entry phase of the next operation and changes nothing else; a
stream without a next element ends the run. That `pc` then stays is the model's choice (log 11). -/
def Obligations.CompletionEntersNextOperation : Prop :=
  ∀ s : State,
    (opAt s (s.pc.k + 1) = some .boot → complete s = { s with pc := ⟨s.pc.k + 1, .B0⟩ }) ∧
    (opAt s (s.pc.k + 1) = some .poll → complete s = { s with pc := ⟨s.pc.k + 1, .S⟩ }) ∧
    (opAt s (s.pc.k + 1) = some .loop → complete s = { s with pc := ⟨s.pc.k + 1, .S⟩ }) ∧
    (opAt s (s.pc.k + 1) = some .advance → complete s = { s with pc := ⟨s.pc.k + 1, .A⟩ }) ∧
    (opAt s (s.pc.k + 1) = none → complete s = { s with status := .ended })

/-! ## POLL and LOOP -/

/-- 40_debouncer.md R63: phase `S` of `POLL` and of `LOOP`. One sample is read, recorded and stored in `prev`
unconditionally; the edge test uses the value `prev` had before; on an edge the operation goes on to `D` with `res`
untouched and `prev` Pressed, and `D` and `W` keep `prev`; otherwise `res` is `NoChange` and it completes. -/
def Obligations.SamplePhaseTestsEdge : Prop :=
  ∀ (i : Instr) (s : State), i = .poll ∨ i = .loop →
    (s.pc.ph = .S → levelOf s.cfg s.prev = .released → levelOf s.cfg (s.pin.sample s.rd) = .pressed →
      ∃ t, exec i s = .next t ∧ levelOf t.cfg t.prev = .pressed ∧
        t = { s with prev := s.pin.sample s.rd, rd := s.rd + 1, hist := s.hist ++ [.readpin (s.pin.sample s.rd)],
                     pc := ⟨s.pc.k, .D⟩ }) ∧
    (s.pc.ph = .S → ¬ (levelOf s.cfg s.prev = .released ∧ levelOf s.cfg (s.pin.sample s.rd) = .pressed) →
      exec i s = .next (complete
        { s with prev := s.pin.sample s.rd, rd := s.rd + 1, hist := s.hist ++ [.readpin (s.pin.sample s.rd)],
                 res := .noChange })) ∧
    (s.pc.ph = .D ∨ s.pc.ph = .W → ∃ t, exec i s = .next t ∧ t.prev = s.prev)

/-- 40_debouncer.md R64: phase `D` of `POLL` and of `LOOP` issues the delay, reads no pin, changes no state but `pc` and
`hist`, and goes on to `W`. -/
def Obligations.DelayPhaseOnlyDelays : Prop :=
  ∀ (i : Instr) (s : State), i = .poll ∨ i = .loop → s.pc.ph = .D →
    exec i s = .next { s with hist := s.hist ++ [.delay s.cfg.debounceMs], pc := ⟨s.pc.k, .W⟩ }

/-- 40_debouncer.md R65, R69 and 42_main_loop.md R87: phase `W` reads one fresh sample, not stored in `prev`, and writes
`res = Press`; it stays while the sample is Pressed; on Released `POLL` completes and `LOOP` goes to `A`. That
the tap `evt_press` (20_memory.md R44) is high in the state after that step is the model's reading of its exact edge (log 18). -/
def Obligations.WaitPhaseHoldsUntilRelease : Prop :=
  ∀ (i : Instr) (s : State), i = .poll ∨ i = .loop → s.pc.ph = .W →
    (levelOf s.cfg (s.pin.sample s.rd) = .pressed →
      exec i s = .next { s with rd := s.rd + 1, hist := s.hist ++ [.readpin (s.pin.sample s.rd)], res := .press }) ∧
    (levelOf s.cfg (s.pin.sample s.rd) = .released → i = .poll →
      exec i s = .next (complete { s with rd := s.rd + 1, hist := s.hist ++ [.readpin (s.pin.sample s.rd)],
                                          res := .press, evtPress := true })) ∧
    (levelOf s.cfg (s.pin.sample s.rd) = .released → i = .loop →
      exec i s = .next { s with rd := s.rd + 1, hist := s.hist ++ [.readpin (s.pin.sample s.rd)],
                                res := .press, evtPress := true, pc := ⟨s.pc.k, .A⟩ })

/-- 40_debouncer.md R71: already pressed when the call is entered and sampled pressed, there is one `READPIN`, no
`DELAY`, `NoChange` at once, and `prev` stays Pressed. -/
def Obligations.SustainedHoldIsNoChange : Prop :=
  ∀ (i : Instr) (s : State), i = .poll ∨ i = .loop → s.pc.ph = .S →
    levelOf s.cfg s.prev = .pressed → levelOf s.cfg (s.pin.sample s.rd) = .pressed →
    exec i s = .next (complete
      { s with rd := s.rd + 1, hist := s.hist ++ [.readpin (rawOf s.cfg .pressed)], res := .noChange })

/-- 40_debouncer.md R74: no phase of `POLL` changes `idx` or `PR`, and none issues a `SETPR`. -/
def Obligations.PollTouchesNoSelector : Prop :=
  ∀ (s : State), s.pc.ph = .S ∨ s.pc.ph = .D ∨ s.pc.ph = .W →
    ∃ t e, exec .poll s = .next t ∧ t.idx = s.idx ∧ t.pr = s.pr ∧ t.hist = s.hist ++ [e] ∧ ∀ v, e ≠ .setpr v

/-- 40_debouncer.md R66: `POLL` as one big step, over every stream, configuration and oracle. Without an edge it takes one
step; with an edge and the first later Released sample at `rd + n` it takes `n + 2` steps, returns `Press`, and records
exactly the samples and the delay. That the tap `evt_press` (20_memory.md R44) is high in the state at completion with `Press`,
and low without, is the model's reading of its exact edge (log 18). -/
def Obligations.PollBigStep : Prop :=
  ∀ s : State, Stepping s → currentOp s = some .poll → s.pc.ph = .S →
    (¬ (levelOf s.cfg s.prev = .released ∧ levelOf s.cfg (s.pin.sample s.rd) = .pressed) →
      runFor 1 s = .next (complete
        { s with prev := s.pin.sample s.rd, rd := s.rd + 1, res := .noChange, evtPress := false,
                 hist := s.hist ++ [.readpin (s.pin.sample s.rd)] })) ∧
    (∀ n, levelOf s.cfg s.prev = .released → levelOf s.cfg (s.pin.sample s.rd) = .pressed → 1 ≤ n →
      (∀ j, 1 ≤ j → j < n → levelOf s.cfg (s.pin.sample (s.rd + j)) = .pressed) →
      levelOf s.cfg (s.pin.sample (s.rd + n)) = .released →
      runFor (n + 2) s = .next (complete
        { s with prev := s.pin.sample s.rd, rd := s.rd + n + 1, res := .press, evtPress := true, pc := ⟨s.pc.k, .W⟩,
                 hist := s.hist ++ [.readpin (s.pin.sample s.rd), .delay s.cfg.debounceMs] ++
                   (List.range n).map fun j => .readpin (s.pin.sample (s.rd + 1 + j)) }))

/-- 42_main_loop.md R86, R87: `LOOP` with a press takes the phases `S D W+ A`: the release at `rd + n` is followed at
once by the one `SETPR` of the entry at the new index, with which the iteration completes. That the tap `evt_press` has
fallen by then is the model's reading of its exact edge (log 18). -/
def Obligations.LoopBigStep : Prop :=
  ∀ (s : State) (n v : Nat), Stepping s → currentOp s = some .loop → s.pc.ph = .S →
    levelOf s.cfg s.prev = .released → levelOf s.cfg (s.pin.sample s.rd) = .pressed → 1 ≤ n →
    (∀ j, 1 ≤ j → j < n → levelOf s.cfg (s.pin.sample (s.rd + j)) = .pressed) →
    levelOf s.cfg (s.pin.sample (s.rd + n)) = .released →
    s.idx < s.cfg.tableLen → s.cfg.table[(s.idx + 1) % s.cfg.tableLen]? = some v →
    runFor (n + 3) s = .next (complete
      { s with prev := s.pin.sample s.rd, rd := s.rd + n + 1, res := .press, evtPress := false,
               idx := (s.idx + 1) % s.cfg.tableLen, pr := some v, pc := ⟨s.pc.k, .A⟩,
               hist := s.hist ++ [.readpin (s.pin.sample s.rd), .delay s.cfg.debounceMs] ++
                 ((List.range n).map fun j => .readpin (s.pin.sample (s.rd + 1 + j))) ++ [.setpr v] })

/-- 60_exceptions.md R108, 70_reset_and_hazards.md R125: after a press edge with no later Released sample, `POLL` and
`LOOP` stay in `W` for ever: `m` steps into the wait `idx` and `PR` are as before, `prev` is Pressed, and `hist` has
grown by the edge sample, the delay and one pressed sample a step; nothing but reset ends it. -/
def Obligations.StuckButtonHangs : Prop :=
  ∀ (i : Instr) (s : State), i = .poll ∨ i = .loop → Stepping s → currentOp s = some i → s.pc.ph = .S →
    levelOf s.cfg s.prev = .released → (∀ j, levelOf s.cfg (s.pin.sample (s.rd + j)) = .pressed) →
    ∀ m, ∃ t, runFor (m + 2) s = .next t ∧
      t = { s with pc := ⟨s.pc.k, .W⟩, prev := rawOf s.cfg .pressed, rd := s.rd + m + 1, evtPress := false,
                   res := if m = 0 then s.res else .press,
                   hist := s.hist ++ [.readpin (rawOf s.cfg .pressed), .delay s.cfg.debounceMs] ++
                     List.replicate m (.readpin (rawOf s.cfg .pressed)) } ∧
      step { t with inputs := [⟨true, false⟩] } = .next (applyReset t)

/-! ## ADVANCE -/

/-- 41_selector.md R77: phase `A` of `ADVANCE` and of `LOOP`: increment, wrap to 0 where the new index equals or exceeds
`TABLE_LEN`, look up at the new index, write the period, complete; `prev`, `res` and `rd` are untouched (R85). -/
def Obligations.AdvancePhaseRotates : Prop :=
  ∀ (i : Instr) (s : State) (v : Nat), i = .advance ∨ i = .loop → s.pc.ph = .A → s.idx < s.cfg.tableLen →
    s.cfg.table[if s.cfg.tableLen ≤ s.idx + 1 then 0 else s.idx + 1]? = some v →
    exec i s = .next (complete
      { s with idx := if s.cfg.tableLen ≤ s.idx + 1 then 0 else s.idx + 1, pr := some v,
               hist := s.hist ++ [.setpr v] })

/-- 41_selector.md R78, R85: for an index in range the incremented, compared and narrowed index is
`(idx + 1) mod TABLE_LEN`, for every table length, and the entry read is the table's entry at that index, which exists. -/
def Obligations.IncrementIsModular : Prop :=
  ∀ (c : Config) (idx : Nat), idx < c.tableLen →
    nextIdx c idx = (idx + 1) % c.tableLen ∧ narrowIdx c (nextIdx c idx) = (idx + 1) % c.tableLen ∧
    tableRead c (nextIdx c idx) = c.table[(idx + 1) % c.tableLen]? ∧ (tableRead c (nextIdx c idx)).isSome = true

/-- 00_scope.md R10: `IDX_WIDTH` bits hold every index, `IDX_WIDTH + 1` bits hold every incremented index, and the width
is at least 1 and the least that does. -/
def Obligations.IndexWidthIsLeast : Prop :=
  ∀ c : Config, 1 ≤ c.tableLen →
    1 ≤ idxWidth c ∧ c.tableLen ≤ 2 ^ idxWidth c ∧ (∀ idx, idx < c.tableLen → idx + 1 < 2 ^ (idxWidth c + 1)) ∧
    (∀ w, 1 ≤ w → c.tableLen ≤ 2 ^ w → idxWidth c ≤ w)

/-- 41_selector.md R82: from an index in range, `m` consecutive `ADVANCE` operations leave `idx` at
`(idx + m) mod TABLE_LEN` and issue the entries in cyclic order after the start; `TABLE_LEN` of them restore `idx`. -/
def Obligations.AdvanceIsPeriodic : Prop :=
  ∀ (s : State) (m : Nat), Stepping s → s.pc.ph = .A → s.idx < s.cfg.tableLen → 1 ≤ m →
    (∀ j, j < m → opAt s (s.pc.k + j) = some .advance) →
    ∃ t, runFor m s = .next t ∧ t.idx = (s.idx + m) % s.cfg.tableLen ∧ t.pr = s.cfg.table[t.idx]? ∧
      t.hist = s.hist ++ (List.range m).map (fun j => .setpr (s.cfg.table.getD ((s.idx + 1 + j) % s.cfg.tableLen) 0)) ∧
      t.prev = s.prev ∧ t.res = s.res ∧ t.rd = s.rd ∧ (m = s.cfg.tableLen → t.idx = s.idx)

/-! ## BOOT -/

/-- 43_bringup.md R100: the six phases of `BOOT`, one primitive each, in order, with their arguments; only `B5` touches
the period register, and it completes the operation. -/
def Obligations.BootPhases : Prop :=
  ∀ s : State,
    (s.pc.ph = .B0 → exec .boot s =
      .next { s with hist := s.hist ++ [.cfgdir s.cfg.btnPin false], pc := ⟨s.pc.k, .B1⟩ }) ∧
    (s.pc.ph = .B1 → exec .boot s =
      .next { s with hist := s.hist ++ [.cfgdir s.cfg.pwmPin true], pc := ⟨s.pc.k, .B2⟩ }) ∧
    (s.pc.ph = .B2 → exec .boot s =
      .next { s with hist := s.hist ++ [.cfgpu s.cfg.btnPin s.cfg.pullupEn], pc := ⟨s.pc.k, .B3⟩ }) ∧
    (s.pc.ph = .B3 → exec .boot s =
      .next { s with hist := s.hist ++ [.selclk s.cfg.clkSource s.cfg.clkHz], pc := ⟨s.pc.k, .B4⟩ }) ∧
    (s.pc.ph = .B4 → exec .boot s =
      .next { s with hist := s.hist ++ [.cfgpwm s.cfg.onTimeUs s.cfg.timerSource], pc := ⟨s.pc.k, .B5⟩ }) ∧
    (∀ v, s.pc.ph = .B5 → s.cfg.table[0]? = some v → exec .boot s =
      .next (complete { s with hist := s.hist ++ [.armtmr v s.cfg.prescaler], pr := some v }))

/-- 43_bringup.md R94, R100, R101: `BOOT`, wherever it stands in a stream, takes six steps, records the six bring-up
events in order, leaves `TABLE[0]` in `PR`, and leaves `idx`, `prev`, `res` and `rd` as they are. -/
def Obligations.BootBigStep : Prop :=
  ∀ (s : State) (v : Nat), Stepping s → currentOp s = some .boot → s.pc.ph = .B0 → s.cfg.table[0]? = some v →
    runFor 6 s = .next (complete { s with pr := some v, hist := s.hist ++ bootEvents s.cfg v, evtPress := false,
                                          pc := ⟨s.pc.k, .B5⟩ })

/-- 43_bringup.md R102, R99; 41_selector.md R80: no step outside `BOOT` records a configuration primitive, and a step
that changes `PR` records an `ARMTMR` or a `SETPR` of the new value (reset apart). -/
def Obligations.OnlyBootConfigures : Prop :=
  ∀ s t : State, (portsNow s).rst = false → step s = .next t →
    ∃ new, t.hist = s.hist ++ new ∧
      (currentOp s ≠ some .boot → ∀ e ∈ new, e.instr = .setpr ∨ e.instr = .readpin ∨ e.instr = .delay) ∧
      (t.pr ≠ s.pr → ∃ v, t.pr = some v ∧ (Event.setpr v ∈ new ∨ ∃ p, Event.armtmr v p ∈ new))

/-! ## The step -/

/-- 42_main_loop.md R88, 20_memory.md R45: at an accepting edge of an admitted run the step is the meaning of the decoded
operation, on the state with the edge begun (its input pins used up, `evt_press` low) and the run launched. That the edge uses
up one listed entry of the pins (log 16), that the tap falls at it (log 18) and that a launch is running from it on (log 14) are
the model's. -/
def Obligations.StepRunsDecodedOperation : Prop :=
  ∀ (s : State) (w : OpWord), (portsNow s).rst = false → (portsNow s).ack = true → admission s = none →
    s.prog.word? s.pc.k = some w → (decode w).streamLegal = true →
    step s = exec (decode w) { s with inputs := s.inputs.tail, evtPress := false, status := .running }

/-- 30_encoding.md R52, R56 and log 10 (where a word is placed is the model's choice): the word of each operation and
primitive, placed where the next step runs it, is accepted, and the step records exactly the event the instruction's meaning
records, with its effect on `PR` and `rd`, and for an operation also on `idx`, `prev` and `res`. The argument of `SETPR` is the
entry at the new index (41_selector.md R77). -/
def Obligations.PlacedWordRunsNext : Prop :=
  ∀ (i : Instr) (s : State), i.isReserved = false → s.idx < s.cfg.tableLen →
    decodeTableWord 8 (encode i).toNat = some i ∧
    ∃ t u, step (s.withFetchWord 8 (encode i).toNat) = .next t ∧
      exec i { s with pc := ⟨s.pc.k, carrierPhase i⟩,
                      idx := if i = .setpr then nextIdx s.cfg s.idx else s.idx } = .next u ∧
      t.hist = u.hist ∧ t.pr = u.pr ∧ t.rd = u.rd ∧
      (i.streamLegal = true → t.idx = u.idx ∧ t.prev = u.prev ∧ t.res = u.res)

/-- 00_scope.md R12: at an accepting edge every step that is taken issues exactly one primitive, the one the operation
issues in its phase, records it as one event, and counts a pin read exactly for `READPIN`. -/
def Obligations.StepIssuesOnePrimitive : Prop :=
  ∀ s t : State, (portsNow s).rst = false → (portsNow s).ack = true → step s = .next t →
    ∃ o e, currentOp s = some o ∧ t.hist = s.hist ++ [e] ∧ issuedPrimitive o s.pc.ph = some e.instr ∧
      t.rd = s.rd + (if e.instr = .readpin then 1 else 0)

/-- 20_memory.md R44, R45; 30_encoding.md R49, R52: the request on the ports before an accepting edge is the primitive
and the arguments of the event that edge records, and the event's returned bit is the one valid on `prim_rdata` (for a
`READPIN` and for nothing else). Arguments that fit `ARG_W` are on the ports as they are; that others are there modulo
`2^ARG_W` is the model's choice (log 21). -/
def Obligations.RequestIsRecordedEvent : Prop :=
  ∀ (s : State) (q : Request), (portsNow s).ack = true → request s = some q →
    ∃ t e, step s = .next t ∧ t.hist = s.hist ++ [e] ∧ q.sel = OpWord.sel (e.bus s.cfg).op ∧
      ((e.bus s.cfg).a < 2 ^ s.cfg.argW → q.a = (e.bus s.cfg).a) ∧
      ((e.bus s.cfg).b < 2 ^ s.cfg.argW → q.b = (e.bus s.cfg).b) ∧
      q.a = (e.bus s.cfg).a % 2 ^ s.cfg.argW ∧ q.b = (e.bus s.cfg).b % 2 ^ s.cfg.argW ∧
      (portsIn s).primRdata = (e.bus s.cfg).r

/-- 20_memory.md R44, R45, R47: the taps show `idx` and `prev`; `prim_req` is high exactly while `rst` is low, the run is
admitted, and the operation issues a primitive in its phase with the entry it needs in the table: so in every running state at a
reachable pair with a non-empty table a request is raised. That it is low exactly as long as `rst` is high, and before a launch
that is refused, is the model's choice (log 30), and so is that it does not fall between two requests (log 32). -/
def Obligations.OutputPortsShowState : Prop :=
  ∀ s : State,
    (portsOut s).dbgIdx = s.idx ∧ (portsOut s).dbgPrev = s.prev ∧ (portsOut s).evtPress = s.evtPress ∧
    (portsOut s).request = request s ∧ ((portsOut s).primReq = true ↔ (request s).isSome = true) ∧
    ((portsOut s).primReq = true ↔ (portsNow s).rst = false ∧ admission s = none ∧
      ∃ o p, currentOp s = some o ∧ issuedPrimitive o s.pc.ph = some p ∧
        (s.cfg.table = [] → p ≠ .armtmr ∧ p ≠ .setpr)) ∧
    (s.status = .running → (portsNow s).rst = false → ReachablePair s → s.cfg.table ≠ [] → (request s).isSome = true)

/-- 20_memory.md R45, 70_reset_and_hazards.md R125: a request is held as it is over an edge with `prim_ack` low, which records
nothing, and is dropped where `rst` is high. That `prim_req` is low exactly as long as `rst` is high is the model's choice
(log 30). -/
def Obligations.RequestHeldUntilAck : Prop :=
  ∀ (s : State) (q : Request), (portsNow s).ack = false → request s = some q →
    ∃ t, step s = .next t ∧ t.hist = s.hist ∧ t.rd = s.rd ∧ t.pc = s.pc ∧
      ((portsNow t).rst = false → request t = some q) ∧ ((portsNow t).rst = true → request t = none)

/-- 20_memory.md R45, R46: while `prim_ack` is low no state changes but the pins used up, the `evt_press` pulse and the
status, which is running after the first such edge of a launch (log 14); however many such edges come first, and whatever pins
follow them, the next edge is the one that would have come without them. -/
def Obligations.WaitStatesChangeNothing : Prop :=
  ∀ (s : State) (m : Nat) (rest : List PortIn), admission s = none →
    ∃ t, runFor m { s with inputs := List.replicate m ⟨false, false⟩ ++ rest } = .next t ∧
      t = { s with inputs := rest, evtPress := if m = 0 then s.evtPress else false,
                   status := if m = 0 then s.status else .running } ∧
      step t = step { s with inputs := rest }

/-- 70_reset_and_hazards.md R120, R125; 10_state.md R26; 60_exceptions.md R111: an asserted `rst` wins at every edge, in
every state and phase: the state takes the reset values, no event is recorded, the read count, the parameters and the
environment stay. Released as the value of `prev` is the spec's own inference (log 6); that `evt_press` is low (log 18), that the
run stands before a launch (logs 14, 17), and that the edge uses up one listed entry of the pins (log 16) are the model's. -/
def Obligations.ResetWinsAtEveryEdge : Prop :=
  ∀ s : State, (portsNow s).rst = true → ∃ t, step s = .next t ∧
    t.prev = rawOf s.cfg .released ∧ t.idx = 0 ∧ t.res = .noChange ∧ t.pc.k = 0 ∧
    (∀ o ph, opAt s 0 = some o → entryPhase o = some ph → t.pc.ph = ph) ∧
    t.pr = none ∧ t.hist = [] ∧ t.rd = s.rd ∧ t.evtPress = false ∧ t.status = .launch ∧
    t.cfg = s.cfg ∧ t.prog = s.prog ∧ t.pin = s.pin ∧ t.inputs = s.inputs.tail

/-- 10_state.md R26: the values of the state after reset and before the first step. Of these Released for `prev` is the
spec's own inference (log 6), `NoChange` for `res` its own decision (log 7), and `AUTO` as the stream is 42_main_loop.md R89 with
log 10. The configuration, the pin script,
`evt_press` and the status are the model's choices (logs 1, 4, 14, 18) and are not stated here. -/
def Obligations.ResetStateValues : Prop :=
  State.reset.prev = rawOf State.reset.cfg .released ∧ State.reset.idx = 0 ∧ State.reset.res = .noChange ∧
  State.reset.pc = ⟨0, .B0⟩ ∧ State.reset.pr = none ∧ State.reset.hist = [] ∧ State.reset.rd = 0 ∧
  State.reset.prog = Prog.auto

/-- 42_main_loop.md R88, 60_exceptions.md R106, R112: when a step is taken, from every state: at a reset edge, and otherwise
exactly when the run is admitted and either the request waits or the operation issues a primitive in its phase with the entry it
needs in the table; at any other edge no step is taken. That the model then answers with a refusal is its choice (logs 11, 13,
25, 26). -/
def Obligations.StepTakenExactly : Prop :=
  ∀ s : State,
    (∃ t, step s = .next t) ↔ (portsNow s).rst = true ∨ (admission s = none ∧ ((portsNow s).ack = false ∨
      ∃ o p, currentOp s = some o ∧ issuedPrimitive o s.pc.ph = some p ∧
        (s.cfg.table = [] → p ≠ .armtmr ∧ p ≠ .setpr)))

/-- 42_main_loop.md R90: after the end no step is taken, until reset. That the model says so by a refusal is its own
choice (log 11). -/
def Obligations.EndedRunTakesNoStep : Prop :=
  ∀ s : State, s.status = .ended → (portsNow s).rst = false → step s = .refused .ended

/-! ## The launch -/

/-- 60_exceptions.md R112, 10_state.md R29: a launch passes exactly when every element of the stream is a sequencer
operation, the table is not empty, fits `PR_MAX` and strictly decreases, the index is in range, and `pc` is at an
operation boundary. -/
def Obligations.LaunchPassesExactly : Prop :=
  ∀ s : State, launchRefusal s = none ↔
    (∀ w ∈ s.prog.words, decode w = .poll ∨ decode w = .advance ∨ decode w = .loop ∨ decode w = .boot) ∧
    s.cfg.table ≠ [] ∧ (∀ v ∈ s.cfg.table, v ≤ 2 ^ s.cfg.prWidth - 1) ∧
    (∀ i, i + 1 < s.cfg.table.length → s.cfg.table.getD (i + 1) 0 < s.cfg.table.getD i 0) ∧
    s.idx < s.cfg.table.length ∧ AtBoundary s

/-- 30_encoding.md R55, R56: the refusal of a stream names the first ill-formed element: a reserved code as
`ReservedOp k`, a primitive as `PrimitiveInStream k`, with every element before position `k` legal. That the FIRST is named is the model's choice (log 12). -/
def Obligations.StreamRefusalNamesFirst : Prop :=
  ∀ (ws : List OpWord) (r : Refusal), streamRefusal 0 ws = some r ↔
    ∃ k w, ws[k]? = some w ∧ (decode w).streamLegal = false ∧
      (∀ j u, j < k → ws[j]? = some u → (decode u).streamLegal = true) ∧
      ((3 < (OpWord.sel w).toNat ∧ OpWord.cls w = true ∧ r = .reservedOp k) ∨
       (OpWord.cls w = false ∧ r = .primitiveInStream k))

/-- 00_scope.md R7, 41_selector.md R84: each refusal of a configuration is of a real violation at the place it names. That
an entry is named as too large only where no entry before it is, is the model's choice (log 12). -/
def Obligations.ConfigRefusalNamesViolation : Prop :=
  ∀ (c : Config) (r : Refusal), configRefusal c = some r →
    (r = .emptyTable ∧ c.table = []) ∨
    (∃ i v, r = .entryTooLarge i ∧ c.table[i]? = some v ∧ 2 ^ c.prWidth - 1 < v ∧
      ∀ j u, j < i → c.table[j]? = some u → u ≤ 2 ^ c.prWidth - 1) ∨
    (∃ i a b, r = .tableNotDecreasing (i + 1) ∧ c.table[i]? = some a ∧ c.table[i + 1]? = some b ∧ a ≤ b)

/-- 60_exceptions.md R112: an ill-formed launch is refused with its reason before any step is taken. That the checks are
made at the first edge without reset, whatever `prim_ack` is, is the model's choice (log 14). -/
def Obligations.IllFormedLaunchRefused : Prop :=
  ∀ (s : State) (r : Refusal), s.status = .launch → (portsNow s).rst = false → launchRefusal s = some r →
    step s = .refused r

/-! ## Invariants of every step -/

/-- 60_exceptions.md R112 ("decided before the first step, never during a run") and 10_state.md R28 (a): from every state
of a well-formed run that has not ended, whatever the pins do, a step is taken and leads to a well-formed state; so no
refusal arises during a run and the index stays in range; and every step that is taken, the reset of an ended run too, leads to
a well-formed state. -/
def Obligations.RunSafeProgresses : Prop :=
  ∀ s : State, RunSafe s →
    (s.status ≠ .ended → ∃ t, step s = .next t) ∧ (∀ t, step s = .next t → RunSafe t)

/-- `RunSafe` holds at reset and in every launch state that passes the checks with an operation at position 0. -/
def Obligations.RunSafeAtLaunch : Prop :=
  RunSafe State.reset ∧
  ∀ s : State, s.status = .launch → launchRefusal s = none → (opAt s 0).isSome = true → RunSafe s

/-- 70_reset_and_hazards.md R126: from every state of a well-formed run whose `prev`, `idx` and `PR` are what its history
says, a step leads to another such state: the history determines them for ever. -/
def Obligations.HistoryDeterminesState : Prop :=
  ∀ s t : State, RunSafe s → HistDetermines s → step s = .next t → HistDetermines t

/-- 42_main_loop.md R92, 10_state.md R28 (b): under `AUTO`, for every table and oracle and every reset, a step keeps the
form of the history: bring-up, whole iterations, the one in progress, each an idle sample without an edge against the level
stored before it or a press from the released level, with the `j`-th `SETPR` carrying
`TABLE[j mod TABLE_LEN]`, `idx = j mod TABLE_LEN`, and `PR = TABLE[idx]` after the bring-up. -/
def Obligations.AutoTraceKept : Prop :=
  ∀ s t : State, AutoTrace s → step s = .next t → AutoTrace t

/-- The two trace invariants hold at reset. -/
def Obligations.TraceInvariantsAtReset : Prop := AutoTrace State.reset ∧ HistDetermines State.reset

/-- 40_debouncer.md R63: the stored level is Pressed for the whole of phases `D` and `W`, an invariant of every step from
every state. -/
def Obligations.PressedWhileWaitingKept : Prop :=
  ∀ s t : State, PressedWhileWaiting s → step s = .next t → PressedWhileWaiting t

/-- 20_memory.md R31, R43: no step writes the table, the stream or any parameter. -/
def Obligations.ParametersNeverWritten : Prop :=
  ∀ s t : State, step s = .next t → t.cfg = s.cfg ∧ t.prog = s.prog ∧ t.pin = s.pin

/-- 10_state.md R13: `prev` is written only by phase `S` of `POLL` or `LOOP`, then with the sample read, and by reset, then
with the released level (the spec's own inference, log 6); and it is read only there: in any other phase of a run two states that differ in `prev` alone
take steps that differ in `prev` alone. -/
def Obligations.PrevOnlyInSamplePhase : Prop :=
  (∀ s t : State, step s = .next t → t.prev ≠ s.prev →
    ((portsNow s).rst = true ∧ t.prev = !s.cfg.pressedRaw) ∨
    (s.pc.ph = .S ∧ (currentOp s = some .poll ∨ currentOp s = some .loop) ∧ t.prev = s.pin.sample s.rd)) ∧
  (∀ (s t : State) (b : Bit), s.pc.ph ≠ .S → (portsNow s).rst = false → step s = .next t →
    step { s with prev := b } = .next { t with prev := b }) ∧
  (∀ s t : State, s.pc.ph = .S → (portsNow s).rst = false → (portsNow s).ack = true → step s = .next t →
    t.prev = s.pin.sample s.rd)

/-- 10_state.md R14, R20: while a run goes on `idx` is written only by phase `A` of `ADVANCE` or `LOOP` and by reset, and
read only there; `res` is written only in phases `S` and `W` and by reset, then
with `NoChange` (the spec's own decision, log 7). -/
def Obligations.IndexAndResultAccess : Prop :=
  (∀ s t : State, step s = .next t → t.idx ≠ s.idx →
    ((portsNow s).rst = true ∧ t.idx = 0) ∨
    (s.pc.ph = .A ∧ (currentOp s = some .advance ∨ currentOp s = some .loop))) ∧
  (∀ (s t : State) (n : Nat), s.pc.ph ≠ .A → s.status = .running → (portsNow s).rst = false → step s = .next t →
    step { s with idx := n } = .next { t with idx := n }) ∧
  (∀ s t : State, step s = .next t → t.res ≠ s.res →
    ((portsNow s).rst = true ∧ t.res = .noChange) ∨ (s.pc.ph = .S ∧ t.res = .noChange) ∨
    (s.pc.ph = .W ∧ t.res = .press))

/-- 10_state.md R21, R24; 20_memory.md R47: the block never reads its history, the period register or the tap: states
that differ in these alone are refused alike, or step alike and record the same new events. -/
def Obligations.ObservationsNeverRead : Prop :=
  ∀ s s' : State, unobserved s = unobserved s' →
    (∀ r, step s = .refused r → step s' = .refused r) ∧
    (∀ t, step s = .next t → ∃ t', step s' = .next t' ∧ unobserved t = unobserved t' ∧
      ((portsNow s).rst = false → ∃ new, t.hist = s.hist ++ new ∧ t'.hist = s'.hist ++ new))

/-- 20_memory.md R44: `evt_press` is high after an edge exactly when that edge completed a poll with `Press`: an accepted
step in phase `W` of `POLL` or `LOOP` whose sample is Released. That this is the state right after that edge is the model's
reading of the tap's exact edge, and that reset leaves the tap low is its choice (log 18). -/
def Obligations.EvtPressMarksRelease : Prop :=
  ∀ s t : State, step s = .next t →
    (t.evtPress = true ↔ (portsNow s).rst = false ∧ (portsNow s).ack = true ∧ s.pc.ph = .W ∧
      (currentOp s = some .poll ∨ currentOp s = some .loop) ∧
      levelOf s.cfg (s.pin.sample s.rd) = .released)

/-- 42_main_loop.md R88: the pairs of operation and phase in which a sequencer operation stops are exactly the pairs
outside the table; what it answers there is the model's choice (log 13). -/
def Obligations.OnlyUnreachablePairsStop : Prop :=
  ∀ (i : Instr) (s : State), i.streamLegal = true → s.cfg.table ≠ [] →
    (issuedPrimitive i s.pc.ph = none → exec i s = .refused .unreachablePhase) ∧
    ((issuedPrimitive i s.pc.ph).isSome = true → ∃ t, exec i s = .next t)

/-! ## The configuration formula -/

/-- 41_selector.md R83: `PeriodOf` is defined exactly for `C >= 4 * P * F > 0`; the frequency its value produces is never
below the target, and equals it exactly when `4 * P * F` divides `C`. -/
def Obligations.FormulaErrsUpward : Prop :=
  ∀ c p f : Nat, 0 < p → 0 < f →
    ((∃ v, periodOf c p f = some v) ↔ 4 * p * f ≤ c) ∧
    (∀ v, periodOf c p f = some v →
      v = c / (4 * p * f) - 1 ∧ (f : ℚ) ≤ freqOf c p v ∧ (freqOf c p v = (f : ℚ) ↔ 4 * p * f ∣ c))

/-- 41_selector.md R84: in a legal configuration all entries are distinct and a later entry stands for a strictly higher
frequency, for every positive clock rate and prescaler. -/
def Obligations.LaterEntriesAreFaster : Prop :=
  ∀ (c : Config) (i j a b : Nat), c.legal = true → 0 < c.clkHz → 0 < c.prescaler → i < j →
    c.table[i]? = some a → c.table[j]? = some b →
    b < a ∧ freqOf c.clkHz c.prescaler a < freqOf c.clkHz c.prescaler b
end

