-- ==== Sys2Proof/Laws/State.lean ====
section
/-! SUPPORT. One lemma per field per update of the state: for each named operation, what each field is afterwards. -/

namespace Sys2Proof.Machine

/-! ## emit -/

@[simp] theorem emit_cfg (e : Event) (s : State) : (emit e s).cfg = s.cfg := rfl
@[simp] theorem emit_prog (e : Event) (s : State) : (emit e s).prog = s.prog := rfl
@[simp] theorem emit_pin (e : Event) (s : State) : (emit e s).pin = s.pin := rfl
@[simp] theorem emit_inputs (e : Event) (s : State) : (emit e s).inputs = s.inputs := rfl
@[simp] theorem emit_prev (e : Event) (s : State) : (emit e s).prev = s.prev := rfl
@[simp] theorem emit_idx (e : Event) (s : State) : (emit e s).idx = s.idx := rfl
@[simp] theorem emit_res (e : Event) (s : State) : (emit e s).res = s.res := rfl
@[simp] theorem emit_pc (e : Event) (s : State) : (emit e s).pc = s.pc := rfl
@[simp] theorem emit_pr (e : Event) (s : State) : (emit e s).pr = s.pr := rfl
@[simp] theorem emit_hist (e : Event) (s : State) : (emit e s).hist = s.hist ++ [e] := rfl
@[simp] theorem emit_rd (e : Event) (s : State) : (emit e s).rd = s.rd := rfl
@[simp] theorem emit_evtPress (e : Event) (s : State) : (emit e s).evtPress = s.evtPress := rfl
@[simp] theorem emit_status (e : Event) (s : State) : (emit e s).status = s.status := rfl

/-! ## readPin -/

@[simp] theorem readPin_cfg (s : State) : (readPin s).cfg = s.cfg := rfl
@[simp] theorem readPin_prog (s : State) : (readPin s).prog = s.prog := rfl
@[simp] theorem readPin_pin (s : State) : (readPin s).pin = s.pin := rfl
@[simp] theorem readPin_inputs (s : State) : (readPin s).inputs = s.inputs := rfl
@[simp] theorem readPin_prev (s : State) : (readPin s).prev = s.prev := rfl
@[simp] theorem readPin_idx (s : State) : (readPin s).idx = s.idx := rfl
@[simp] theorem readPin_res (s : State) : (readPin s).res = s.res := rfl
@[simp] theorem readPin_pc (s : State) : (readPin s).pc = s.pc := rfl
@[simp] theorem readPin_pr (s : State) : (readPin s).pr = s.pr := rfl
@[simp] theorem readPin_hist (s : State) : (readPin s).hist = s.hist ++ [.readpin (nextSample s)] := rfl
@[simp] theorem readPin_rd (s : State) : (readPin s).rd = s.rd + 1 := rfl
@[simp] theorem readPin_evtPress (s : State) : (readPin s).evtPress = s.evtPress := rfl
@[simp] theorem readPin_status (s : State) : (readPin s).status = s.status := rfl

/-! ## issueDelay -/

@[simp] theorem issueDelay_cfg (ms : Nat) (s : State) : (issueDelay ms s).cfg = s.cfg := rfl
@[simp] theorem issueDelay_prog (ms : Nat) (s : State) : (issueDelay ms s).prog = s.prog := rfl
@[simp] theorem issueDelay_pin (ms : Nat) (s : State) : (issueDelay ms s).pin = s.pin := rfl
@[simp] theorem issueDelay_inputs (ms : Nat) (s : State) : (issueDelay ms s).inputs = s.inputs := rfl
@[simp] theorem issueDelay_prev (ms : Nat) (s : State) : (issueDelay ms s).prev = s.prev := rfl
@[simp] theorem issueDelay_idx (ms : Nat) (s : State) : (issueDelay ms s).idx = s.idx := rfl
@[simp] theorem issueDelay_res (ms : Nat) (s : State) : (issueDelay ms s).res = s.res := rfl
@[simp] theorem issueDelay_pc (ms : Nat) (s : State) : (issueDelay ms s).pc = s.pc := rfl
@[simp] theorem issueDelay_pr (ms : Nat) (s : State) : (issueDelay ms s).pr = s.pr := rfl
@[simp] theorem issueDelay_hist (ms : Nat) (s : State) : (issueDelay ms s).hist = s.hist ++ [.delay ms] := rfl
@[simp] theorem issueDelay_rd (ms : Nat) (s : State) : (issueDelay ms s).rd = s.rd := rfl
@[simp] theorem issueDelay_evtPress (ms : Nat) (s : State) : (issueDelay ms s).evtPress = s.evtPress := rfl
@[simp] theorem issueDelay_status (ms : Nat) (s : State) : (issueDelay ms s).status = s.status := rfl

/-! ## setPeriod -/

@[simp] theorem setPeriod_cfg (v : Nat) (s : State) : (setPeriod v s).cfg = s.cfg := rfl
@[simp] theorem setPeriod_prog (v : Nat) (s : State) : (setPeriod v s).prog = s.prog := rfl
@[simp] theorem setPeriod_pin (v : Nat) (s : State) : (setPeriod v s).pin = s.pin := rfl
@[simp] theorem setPeriod_inputs (v : Nat) (s : State) : (setPeriod v s).inputs = s.inputs := rfl
@[simp] theorem setPeriod_prev (v : Nat) (s : State) : (setPeriod v s).prev = s.prev := rfl
@[simp] theorem setPeriod_idx (v : Nat) (s : State) : (setPeriod v s).idx = s.idx := rfl
@[simp] theorem setPeriod_res (v : Nat) (s : State) : (setPeriod v s).res = s.res := rfl
@[simp] theorem setPeriod_pc (v : Nat) (s : State) : (setPeriod v s).pc = s.pc := rfl
@[simp] theorem setPeriod_pr (v : Nat) (s : State) : (setPeriod v s).pr = some v := rfl
@[simp] theorem setPeriod_hist (v : Nat) (s : State) : (setPeriod v s).hist = s.hist ++ [.setpr v] := rfl
@[simp] theorem setPeriod_rd (v : Nat) (s : State) : (setPeriod v s).rd = s.rd := rfl
@[simp] theorem setPeriod_evtPress (v : Nat) (s : State) : (setPeriod v s).evtPress = s.evtPress := rfl
@[simp] theorem setPeriod_status (v : Nat) (s : State) : (setPeriod v s).status = s.status := rfl

/-! ## armTimer -/

@[simp] theorem armTimer_cfg (v p : Nat) (s : State) : (armTimer v p s).cfg = s.cfg := rfl
@[simp] theorem armTimer_prog (v p : Nat) (s : State) : (armTimer v p s).prog = s.prog := rfl
@[simp] theorem armTimer_pin (v p : Nat) (s : State) : (armTimer v p s).pin = s.pin := rfl
@[simp] theorem armTimer_inputs (v p : Nat) (s : State) : (armTimer v p s).inputs = s.inputs := rfl
@[simp] theorem armTimer_prev (v p : Nat) (s : State) : (armTimer v p s).prev = s.prev := rfl
@[simp] theorem armTimer_idx (v p : Nat) (s : State) : (armTimer v p s).idx = s.idx := rfl
@[simp] theorem armTimer_res (v p : Nat) (s : State) : (armTimer v p s).res = s.res := rfl
@[simp] theorem armTimer_pc (v p : Nat) (s : State) : (armTimer v p s).pc = s.pc := rfl
@[simp] theorem armTimer_pr (v p : Nat) (s : State) : (armTimer v p s).pr = some v := rfl
@[simp] theorem armTimer_hist (v p : Nat) (s : State) : (armTimer v p s).hist = s.hist ++ [.armtmr v p] := rfl
@[simp] theorem armTimer_rd (v p : Nat) (s : State) : (armTimer v p s).rd = s.rd := rfl
@[simp] theorem armTimer_evtPress (v p : Nat) (s : State) : (armTimer v p s).evtPress = s.evtPress := rfl
@[simp] theorem armTimer_status (v p : Nat) (s : State) : (armTimer v p s).status = s.status := rfl

/-! ## goto -/

@[simp] theorem goto_cfg (ph : Phase) (s : State) : (goto ph s).cfg = s.cfg := rfl
@[simp] theorem goto_prog (ph : Phase) (s : State) : (goto ph s).prog = s.prog := rfl
@[simp] theorem goto_pin (ph : Phase) (s : State) : (goto ph s).pin = s.pin := rfl
@[simp] theorem goto_inputs (ph : Phase) (s : State) : (goto ph s).inputs = s.inputs := rfl
@[simp] theorem goto_prev (ph : Phase) (s : State) : (goto ph s).prev = s.prev := rfl
@[simp] theorem goto_idx (ph : Phase) (s : State) : (goto ph s).idx = s.idx := rfl
@[simp] theorem goto_res (ph : Phase) (s : State) : (goto ph s).res = s.res := rfl
@[simp] theorem goto_pc (ph : Phase) (s : State) : (goto ph s).pc = ⟨s.pc.k, ph⟩ := rfl
@[simp] theorem goto_pr (ph : Phase) (s : State) : (goto ph s).pr = s.pr := rfl
@[simp] theorem goto_hist (ph : Phase) (s : State) : (goto ph s).hist = s.hist := rfl
@[simp] theorem goto_rd (ph : Phase) (s : State) : (goto ph s).rd = s.rd := rfl
@[simp] theorem goto_evtPress (ph : Phase) (s : State) : (goto ph s).evtPress = s.evtPress := rfl
@[simp] theorem goto_status (ph : Phase) (s : State) : (goto ph s).status = s.status := rfl

/-! ## beginEdge -/

@[simp] theorem beginEdge_cfg (s : State) : (beginEdge s).cfg = s.cfg := rfl
@[simp] theorem beginEdge_prog (s : State) : (beginEdge s).prog = s.prog := rfl
@[simp] theorem beginEdge_pin (s : State) : (beginEdge s).pin = s.pin := rfl
@[simp] theorem beginEdge_inputs (s : State) : (beginEdge s).inputs = s.inputs.tail := rfl
@[simp] theorem beginEdge_prev (s : State) : (beginEdge s).prev = s.prev := rfl
@[simp] theorem beginEdge_idx (s : State) : (beginEdge s).idx = s.idx := rfl
@[simp] theorem beginEdge_res (s : State) : (beginEdge s).res = s.res := rfl
@[simp] theorem beginEdge_pc (s : State) : (beginEdge s).pc = s.pc := rfl
@[simp] theorem beginEdge_pr (s : State) : (beginEdge s).pr = s.pr := rfl
@[simp] theorem beginEdge_hist (s : State) : (beginEdge s).hist = s.hist := rfl
@[simp] theorem beginEdge_rd (s : State) : (beginEdge s).rd = s.rd := rfl
@[simp] theorem beginEdge_evtPress (s : State) : (beginEdge s).evtPress = false := rfl
@[simp] theorem beginEdge_status (s : State) : (beginEdge s).status = s.status := rfl

/-! ## applyReset -/

@[simp] theorem applyReset_cfg (s : State) : (applyReset s).cfg = s.cfg := rfl
@[simp] theorem applyReset_prog (s : State) : (applyReset s).prog = s.prog := rfl
@[simp] theorem applyReset_pin (s : State) : (applyReset s).pin = s.pin := rfl
@[simp] theorem applyReset_inputs (s : State) : (applyReset s).inputs = s.inputs := rfl
@[simp] theorem applyReset_prev (s : State) : (applyReset s).prev = rawOf s.cfg .released := rfl
@[simp] theorem applyReset_idx (s : State) : (applyReset s).idx = 0 := rfl
@[simp] theorem applyReset_res (s : State) : (applyReset s).res = .noChange := rfl
@[simp] theorem applyReset_pc (s : State) : (applyReset s).pc = ⟨0, ((opAt s 0).bind entryPhase).getD .B0⟩ := rfl
@[simp] theorem applyReset_pr (s : State) : (applyReset s).pr = none := rfl
@[simp] theorem applyReset_hist (s : State) : (applyReset s).hist = [] := rfl
@[simp] theorem applyReset_rd (s : State) : (applyReset s).rd = s.rd := rfl
@[simp] theorem applyReset_evtPress (s : State) : (applyReset s).evtPress = false := rfl
@[simp] theorem applyReset_status (s : State) : (applyReset s).status = .launch := rfl

/-! ## complete -/

@[simp] theorem complete_cfg (s : State) : (complete s).cfg = s.cfg := by unfold complete; split <;> rfl
@[simp] theorem complete_prog (s : State) : (complete s).prog = s.prog := by unfold complete; split <;> rfl
@[simp] theorem complete_pin (s : State) : (complete s).pin = s.pin := by unfold complete; split <;> rfl
@[simp] theorem complete_inputs (s : State) : (complete s).inputs = s.inputs := by unfold complete; split <;> rfl
@[simp] theorem complete_prev (s : State) : (complete s).prev = s.prev := by unfold complete; split <;> rfl
@[simp] theorem complete_idx (s : State) : (complete s).idx = s.idx := by unfold complete; split <;> rfl
@[simp] theorem complete_res (s : State) : (complete s).res = s.res := by unfold complete; split <;> rfl
@[simp] theorem complete_pr (s : State) : (complete s).pr = s.pr := by unfold complete; split <;> rfl
@[simp] theorem complete_hist (s : State) : (complete s).hist = s.hist := by unfold complete; split <;> rfl
@[simp] theorem complete_rd (s : State) : (complete s).rd = s.rd := by unfold complete; split <;> rfl
@[simp] theorem complete_evtPress (s : State) : (complete s).evtPress = s.evtPress := by unfold complete; split <;> rfl

end Sys2Proof.Machine
end

