-- ==== Sys2Proof/Laws/Values.lean ====
section
/-! SUPPORT. Levels and raw bits, the edge test, the decoder's words, the stream read by position. -/

namespace Sys2Proof.Machine

theorem levelOf_eq_pressed {c : Config} {b : Bit} : levelOf c b = .pressed ↔ b = c.pressedRaw := by
  unfold levelOf; split <;> simp_all

theorem levelOf_eq_released {c : Config} {b : Bit} : levelOf c b = .released ↔ b = !c.pressedRaw := by
  cases b <;> cases h : c.pressedRaw <;> simp [levelOf, h]

theorem levelOf_ne_pressed {c : Config} {b : Bit} : levelOf c b ≠ .pressed ↔ levelOf c b = .released := by
  cases levelOf c b <;> simp

@[simp] theorem levelOf_rawOf (c : Config) (l : Level) : levelOf c (rawOf c l) = l := by
  cases l
  · exact levelOf_eq_released.2 rfl
  · exact levelOf_eq_pressed.2 rfl

theorem isPressEdge_iff {c : Config} {old cur : Bit} :
    isPressEdge c old cur = true ↔ levelOf c old = .released ∧ levelOf c cur = .pressed := by
  simp [isPressEdge]

theorem decode_loop : decode (encode .loop) = .loop := by decide

/-- A legal stream element is one of the four sequencer operations. -/
theorem streamLegal_iff {i : Instr} :
    i.streamLegal = true ↔ i = .poll ∨ i = .advance ∨ i = .loop ∨ i = .boot := by
  cases i <;> simp [Instr.streamLegal]

/-- A legal element is never refused, any other always. -/
theorem elementRefusal_eq_none {k : Nat} {i : Instr} : elementRefusal k i = none ↔ i.streamLegal = true := by
  unfold elementRefusal
  cases h : i.streamLegal
  · cases h' : i.isReserved <;> simp
  · simp

/-- The sequencer operations are the operations with an entry phase. -/
theorem entryPhase_isSome {i : Instr} : (entryPhase i).isSome = i.streamLegal := by cases i <;> rfl

end Sys2Proof.Machine
end

