-- ==== Sys2Proof/Laws/Moves.lean ====
section
/-! SUPPORT. Said once: every move a sequencer operation can make, and everything a step can do. -/

namespace Sys2Proof.Machine

/-- The phase moves of the four sequencer operations, with the whole next state (42_main_loop.md R88). -/
inductive Move : Instr → State → State → Prop
  | boot0 (s : State) : s.pc.ph = .B0 →
      Move .boot s { s with hist := s.hist ++ [.cfgdir s.cfg.btnPin false], pc := ⟨s.pc.k, .B1⟩ }
  | boot1 (s : State) : s.pc.ph = .B1 →
      Move .boot s { s with hist := s.hist ++ [.cfgdir s.cfg.pwmPin true], pc := ⟨s.pc.k, .B2⟩ }
  | boot2 (s : State) : s.pc.ph = .B2 →
      Move .boot s { s with hist := s.hist ++ [.cfgpu s.cfg.btnPin s.cfg.pullupEn], pc := ⟨s.pc.k, .B3⟩ }
  | boot3 (s : State) : s.pc.ph = .B3 →
      Move .boot s { s with hist := s.hist ++ [.selclk s.cfg.clkSource s.cfg.clkHz], pc := ⟨s.pc.k, .B4⟩ }
  | boot4 (s : State) : s.pc.ph = .B4 →
      Move .boot s { s with hist := s.hist ++ [.cfgpwm s.cfg.onTimeUs s.cfg.timerSource], pc := ⟨s.pc.k, .B5⟩ }
  | boot5 (s : State) (v : Nat) : s.pc.ph = .B5 → tableRead s.cfg 0 = some v →
      Move .boot s (complete { s with hist := s.hist ++ [.armtmr v s.cfg.prescaler], pr := some v })
  | edge (i : Instr) (s : State) : i = .poll ∨ i = .loop → s.pc.ph = .S →
      levelOf s.cfg s.prev = .released → levelOf s.cfg (nextSample s) = .pressed →
      Move i s { s with prev := nextSample s, rd := s.rd + 1, hist := s.hist ++ [.readpin (nextSample s)],
                        pc := ⟨s.pc.k, .D⟩ }
  | noEdge (i : Instr) (s : State) : i = .poll ∨ i = .loop → s.pc.ph = .S →
      ¬ (levelOf s.cfg s.prev = .released ∧ levelOf s.cfg (nextSample s) = .pressed) →
      Move i s (complete { s with prev := nextSample s, rd := s.rd + 1,
                                  hist := s.hist ++ [.readpin (nextSample s)], res := .noChange })
  | delay (i : Instr) (s : State) : i = .poll ∨ i = .loop → s.pc.ph = .D →
      Move i s { s with hist := s.hist ++ [.delay s.cfg.debounceMs], pc := ⟨s.pc.k, .W⟩ }
  | stay (i : Instr) (s : State) : i = .poll ∨ i = .loop → s.pc.ph = .W →
      levelOf s.cfg (nextSample s) = .pressed →
      Move i s { s with rd := s.rd + 1, hist := s.hist ++ [.readpin (nextSample s)], res := .press }
  | pollDone (s : State) : s.pc.ph = .W → levelOf s.cfg (nextSample s) = .released →
      Move .poll s (complete { s with rd := s.rd + 1, hist := s.hist ++ [.readpin (nextSample s)], res := .press,
                                      evtPress := true })
  | loopRelease (s : State) : s.pc.ph = .W → levelOf s.cfg (nextSample s) = .released →
      Move .loop s { s with rd := s.rd + 1, hist := s.hist ++ [.readpin (nextSample s)], res := .press,
                            evtPress := true, pc := ⟨s.pc.k, .A⟩ }
  | rotate (i : Instr) (s : State) (v : Nat) : i = .advance ∨ i = .loop → s.pc.ph = .A →
      tableRead s.cfg (nextIdx s.cfg s.idx) = some v →
      Move i s (complete { s with idx := narrowIdx s.cfg (nextIdx s.cfg s.idx), pr := some v,
                                  hist := s.hist ++ [.setpr v] })

/-- Phase `S` on an edge. -/
theorem phaseS_of_edge {s : State} (h1 : levelOf s.cfg s.prev = .released)
    (h2 : levelOf s.cfg (nextSample s) = .pressed) :
    phaseS s = { s with prev := nextSample s, rd := s.rd + 1, hist := s.hist ++ [.readpin (nextSample s)],
                        pc := ⟨s.pc.k, .D⟩ } := by
  simp [phaseS, isPressEdge_iff.2 ⟨h1, h2⟩]; rfl

/-- Phase `S` without an edge. -/
theorem phaseS_of_noEdge {s : State}
    (h : ¬ (levelOf s.cfg s.prev = .released ∧ levelOf s.cfg (nextSample s) = .pressed)) :
    phaseS s = complete { s with prev := nextSample s, rd := s.rd + 1,
                                 hist := s.hist ++ [.readpin (nextSample s)], res := .noChange } := by
  have h' : isPressEdge s.cfg s.prev (nextSample s) = false := by
    rw [Bool.eq_false_iff]; exact fun e => h (isPressEdge_iff.1 e)
  simp [phaseS, h']

/-- Phase `W` while the sample is Pressed. -/
theorem phaseW_of_pressed {f : State → State} {s : State} (hp : s.pc.ph = .W)
    (h : levelOf s.cfg (nextSample s) = .pressed) :
    phaseW f s = { s with rd := s.rd + 1, hist := s.hist ++ [.readpin (nextSample s)], res := .press } := by
  obtain ⟨_, _, _, _, _, _, _, ⟨_, _⟩, _, _, _, _, _⟩ := s
  simp only at hp
  subst hp
  simp [phaseW, h]; rfl

/-- Phase `W` when the sample is Released. -/
theorem phaseW_of_released {f : State → State} {s : State} (h : levelOf s.cfg (nextSample s) = .released) :
    phaseW f s = f { s with rd := s.rd + 1, hist := s.hist ++ [.readpin (nextSample s)], res := .press,
                            evtPress := true } := by
  simp [phaseW, h]

/-- Phase `A` with an entry at the new index. -/
theorem phaseA_of_entry {s : State} {v : Nat} (h : tableRead s.cfg (nextIdx s.cfg s.idx) = some v) :
    phaseA s = .next (complete { s with idx := narrowIdx s.cfg (nextIdx s.cfg s.idx), pr := some v,
                                        hist := s.hist ++ [.setpr v] }) := by
  simp [phaseA, h]; rfl

/-- A next state of a sequencer operation is one of its moves. -/
theorem move_of_exec {i : Instr} {s t : State} (hl : i.streamLegal = true) (h : exec i s = .next t) : Move i s t := by
  have hS (j : Instr) (hj : j = .poll ∨ j = .loop) (hp : s.pc.ph = .S) : Move j s (phaseS s) := by
    by_cases he : levelOf s.cfg s.prev = .released ∧ levelOf s.cfg (nextSample s) = .pressed
    · rw [phaseS_of_edge he.1 he.2]; exact .edge j s hj hp he.1 he.2
    · rw [phaseS_of_noEdge he]; exact .noEdge j s hj hp he
  have hA (j : Instr) (hj : j = .advance ∨ j = .loop) (hp : s.pc.ph = .A) (h : phaseA s = .next t) : Move j s t := by
    cases hr : tableRead s.cfg (nextIdx s.cfg s.idx) with
    | none => simp [phaseA, hr] at h
    | some v =>
      rw [phaseA_of_entry hr] at h
      cases h
      exact .rotate j s v hj hp hr
  rcases streamLegal_iff.1 hl with rfl | rfl | rfl | rfl
  · cases hp : s.pc.ph <;> simp only [exec, execPoll, hp] at h <;> cases h
    · exact hS _ (.inl rfl) hp
    · exact .delay _ s (.inl rfl) hp
    · cases hv : levelOf s.cfg (nextSample s) with
      | pressed => rw [phaseW_of_pressed hp hv]; exact .stay _ s (.inl rfl) hp hv
      | released => rw [phaseW_of_released hv]; exact .pollDone s hp hv
  · cases hp : s.pc.ph <;> simp only [exec, execAdvance, hp] at h <;> first | exact hA _ (.inl rfl) hp h | cases h
  · cases hp : s.pc.ph <;> simp only [exec, execLoop, hp] at h
    case S => cases h; exact hS _ (.inr rfl) hp
    case D => cases h; exact .delay _ s (.inr rfl) hp
    case W =>
      cases h
      cases hv : levelOf s.cfg (nextSample s) with
      | pressed => rw [phaseW_of_pressed hp hv]; exact .stay _ s (.inr rfl) hp hv
      | released => rw [phaseW_of_released hv]; exact .loopRelease s hp hv
    case A => exact hA _ (.inr rfl) hp h
    all_goals cases h
  · cases hp : s.pc.ph <;> simp only [exec, execBoot, hp] at h
    case B0 => cases h; exact .boot0 s hp
    case B1 => cases h; exact .boot1 s hp
    case B2 => cases h; exact .boot2 s hp
    case B3 => cases h; exact .boot3 s hp
    case B4 => cases h; exact .boot4 s hp
    case B5 =>
      cases hr : tableRead s.cfg 0 with
      | none => simp [hr] at h
      | some v => simp only [hr] at h; cases h; exact .boot5 s v hp hr
    all_goals cases h

/-- Completion: on to the next operation's entry phase, or the end of the run. -/
theorem complete_cases (s : State) :
    (∃ o, opAt s (s.pc.k + 1) = some o ∧
      complete s = { s with pc := ⟨s.pc.k + 1, (entryPhase o).getD .B0⟩ }) ∨
    (opAt s (s.pc.k + 1) = none ∧ complete s = { s with status := .ended }) := by
  unfold complete
  cases h : opAt s (s.pc.k + 1) with
  | none => exact .inr ⟨rfl, rfl⟩
  | some o => exact .inl ⟨o, rfl, rfl⟩

/-- The state an accepted step executes in: the edge begun and the run launched. -/
abbrev launched (s : State) : State := { beginEdge s with status := .running }

/-- Admission does not depend on what every edge does first. -/
theorem admission_beginEdge (s : State) : admission (beginEdge s) = admission s := rfl

/-- Everything a step can do when it answers a next state. -/
theorem step_cases {s t : State} (h : step s = .next t) :
    ((portsNow s).rst = true ∧ t = applyReset (beginEdge s)) ∨
    ((portsNow s).rst = false ∧ admission s = none ∧ (portsNow s).ack = false ∧ t = launched s) ∨
    ((portsNow s).rst = false ∧ admission s = none ∧ (portsNow s).ack = true ∧
      ∃ o, currentOp s = some o ∧ o.streamLegal = true ∧ Move o (launched s) t) := by
  unfold step clockEdge at h
  rw [admission_beginEdge] at h
  cases hr : (portsNow s).rst
  · simp only [hr, Bool.false_eq_true, if_false] at h
    cases ha : admission s with
    | some r => simp [ha] at h
    | none =>
      simp only [ha] at h
      cases hk : (portsNow s).ack
      · simp only [hk, Bool.false_eq_true, if_false] at h
        cases h
        exact .inr (.inl ⟨rfl, rfl, rfl, rfl⟩)
      · simp only [hk, if_true] at h
        refine .inr (.inr ⟨rfl, rfl, rfl, ?_⟩)
        change runOp (launched s) = .next t at h
        unfold runOp at h
        have hc : currentOp (launched s) = currentOp s := rfl
        rw [hc] at h
        cases ho : currentOp s with
        | none => simp [ho] at h
        | some o =>
          simp only [ho] at h
          change (match elementRefusal s.pc.k o with | some r => _ | none => _) = _ at h
          cases he : elementRefusal s.pc.k o with
          | some r => simp [he] at h
          | none =>
            simp only [he] at h
            have hl := elementRefusal_eq_none.1 he
            exact ⟨o, rfl, hl, move_of_exec hl h⟩
  · simp only [hr, if_true] at h
    cases h
    exact .inl ⟨rfl, rfl⟩

/-- An accepted step of an admitted run is the meaning of the operation at `pc`. -/
theorem step_of_admitted {s : State} {o : Instr} (hr : (portsNow s).rst = false) (ha : (portsNow s).ack = true)
    (hm : admission s = none) (ho : currentOp s = some o) (hl : o.streamLegal = true) :
    step s = exec o (launched s) := by
  have hc : currentOp (launched s) = some o := ho
  simp only [step, clockEdge, hr, ha, admission_beginEdge, hm, Bool.false_eq_true, if_false, if_true]
  change runOp (launched s) = _
  simp only [runOp, hc, elementRefusal_eq_none.2 hl]

end Sys2Proof.Machine
end

