-- ==== Sys2Proof/Laws/PerInstr.lean ====
section
/-! SUPPORT. Statements made per instruction: the class of each code point. -/

/-- Exactly one class for each row (30_encoding.md R48, R50): the class bit is 0 exactly for a primitive, and the operation
that carries a primitive to its issue is a sequencer operation, a reserved code its own. -/
def Sys2Proof.Laws.CodeClass.Statement (i : Sys2Proof.Instr) : Prop :=
  Sys2Proof.OpWord.cls (Sys2Proof.encode i) = !i.isPrimitive ∧
  (Sys2Proof.Machine.carrier i).streamLegal = !i.isReserved ∧
  (i.streamLegal = true → Sys2Proof.Machine.entryPhase i = some (Sys2Proof.Machine.carrierPhase i))

theorem Sys2Proof.Laws.CodeClass.cfgdir : Sys2Proof.Laws.CodeClass.Statement .cfgdir := ⟨rfl, rfl, by decide⟩
theorem Sys2Proof.Laws.CodeClass.cfgpu : Sys2Proof.Laws.CodeClass.Statement .cfgpu := ⟨rfl, rfl, by decide⟩
theorem Sys2Proof.Laws.CodeClass.selclk : Sys2Proof.Laws.CodeClass.Statement .selclk := ⟨rfl, rfl, by decide⟩
theorem Sys2Proof.Laws.CodeClass.cfgpwm : Sys2Proof.Laws.CodeClass.Statement .cfgpwm := ⟨rfl, rfl, by decide⟩
theorem Sys2Proof.Laws.CodeClass.armtmr : Sys2Proof.Laws.CodeClass.Statement .armtmr := ⟨rfl, rfl, by decide⟩
theorem Sys2Proof.Laws.CodeClass.setpr : Sys2Proof.Laws.CodeClass.Statement .setpr := ⟨rfl, rfl, by decide⟩
theorem Sys2Proof.Laws.CodeClass.readpin : Sys2Proof.Laws.CodeClass.Statement .readpin := ⟨rfl, rfl, by decide⟩
theorem Sys2Proof.Laws.CodeClass.delay : Sys2Proof.Laws.CodeClass.Statement .delay := ⟨rfl, rfl, by decide⟩
theorem Sys2Proof.Laws.CodeClass.poll : Sys2Proof.Laws.CodeClass.Statement .poll := ⟨rfl, rfl, by decide⟩
theorem Sys2Proof.Laws.CodeClass.advance : Sys2Proof.Laws.CodeClass.Statement .advance := ⟨rfl, rfl, by decide⟩
theorem Sys2Proof.Laws.CodeClass.loop : Sys2Proof.Laws.CodeClass.Statement .loop := ⟨rfl, rfl, by decide⟩
theorem Sys2Proof.Laws.CodeClass.boot : Sys2Proof.Laws.CodeClass.Statement .boot := ⟨rfl, rfl, by decide⟩
theorem Sys2Proof.Laws.CodeClass.reservedC : Sys2Proof.Laws.CodeClass.Statement .reservedC := ⟨rfl, rfl, by decide⟩
theorem Sys2Proof.Laws.CodeClass.reservedD : Sys2Proof.Laws.CodeClass.Statement .reservedD := ⟨rfl, rfl, by decide⟩
theorem Sys2Proof.Laws.CodeClass.reservedE : Sys2Proof.Laws.CodeClass.Statement .reservedE := ⟨rfl, rfl, by decide⟩
theorem Sys2Proof.Laws.CodeClass.reservedF : Sys2Proof.Laws.CodeClass.Statement .reservedF := ⟨rfl, rfl, by decide⟩
end

