-- ==== Sys2Proof/Laws/Runs.lean ====
section
/-! SUPPORT. What the launch checks pass, what a request says, what a completed step records, and runs at the event level. -/

namespace Sys2Proof.Machine

/-! ## The launch checks -/

theorem firstTooLarge_eq_none {max i : Nat} {l : List Nat} : firstTooLarge max i l = none ↔ ∀ v ∈ l, v ≤ max := by
  induction l generalizing i with
  | nil => simp [firstTooLarge]
  | cons a l ih => by_cases h : max < a <;> (simp [firstTooLarge, h, ih]; try omega)

theorem firstNotDecreasing_eq_none {i : Nat} {l : List Nat} :
    firstNotDecreasing i l = none ↔ strictlyDecreasing l = true := by
  induction l generalizing i with
  | nil => simp [firstNotDecreasing, strictlyDecreasing]
  | cons a l ih =>
    cases l with
    | nil => simp [firstNotDecreasing, strictlyDecreasing]
    | cons b l => by_cases h : a ≤ b <;> (simp [firstNotDecreasing, strictlyDecreasing, h, ih]; try omega)

/-- `strictlyDecreasing` by positions. -/
theorem strictlyDecreasing_iff {l : List Nat} :
    strictlyDecreasing l = true ↔ ∀ i, i + 1 < l.length → l.getD (i + 1) 0 < l.getD i 0 := by
  induction l with
  | nil => simp [strictlyDecreasing]
  | cons a l ih =>
    cases l with
    | nil => simp [strictlyDecreasing]
    | cons b l =>
      simp only [strictlyDecreasing, Bool.and_eq_true, decide_eq_true_eq, ih]
      constructor
      · rintro ⟨h1, h2⟩ i hi
        cases i with
        | zero => simpa using h1
        | succ i => simpa using h2 i (by simpa using hi)
      · exact fun h => ⟨by simpa using h 0 (by simp), fun i hi => by simpa using h (i + 1) (by simpa using hi)⟩

theorem legal_iff {c : Config} : c.legal = true ↔
    c.table ≠ [] ∧ (∀ v ∈ c.table, v ≤ c.prMax) ∧ strictlyDecreasing c.table = true := by
  simp [Config.legal, Config.tableNonempty, Config.entriesFit, Config.tableDecreasing, and_assoc]

theorem configRefusal_eq_none {c : Config} : configRefusal c = none ↔ c.legal = true := by
  rw [legal_iff, ← firstTooLarge_eq_none (i := 0), ← firstNotDecreasing_eq_none (i := 1)]
  unfold configRefusal
  cases c.table with
  | nil => simp
  | cons a l =>
    cases firstTooLarge c.prMax 0 (a :: l) with
    | some i => simp
    | none => cases firstNotDecreasing 1 (a :: l) <;> simp

theorem streamRefusal_eq_none {k : Nat} {l : List OpWord} :
    streamRefusal k l = none ↔ ∀ w ∈ l, (decode w).streamLegal = true := by
  induction l generalizing k with
  | nil => simp [streamRefusal]
  | cons w l ih =>
    cases h : elementRefusal k (decode w) with
    | none => simp [streamRefusal, h, ih, elementRefusal_eq_none.1 h]
    | some r =>
      have : (decode w).streamLegal ≠ true := fun e => by simp [elementRefusal_eq_none.2 e] at h
      simp [streamRefusal, h, this]

theorem boundaryRefusal_eq_none {s : State} :
    boundaryRefusal s = none ↔ s.idx < s.cfg.tableLen ∧ AtBoundary s := by
  unfold boundaryRefusal AtBoundary
  by_cases h : s.cfg.tableLen ≤ s.idx
  · simp [h]
  · cases currentOp s with
    | none => simp [h]
    | some o => simp [h, Nat.lt_of_not_le h]

/-- Every word of a legal stream decodes to a sequencer operation, at every position. -/
theorem opAt_streamLegal {s : State} {k : Nat} {o : Instr} (h : ∀ w ∈ s.prog.words, (decode w).streamLegal = true)
    (ho : opAt s k = some o) : o.streamLegal = true := by
  unfold opAt Prog.word? at ho
  cases hk : s.prog.words[k]? with
  | some w => simp [hk] at ho; rw [← ho]; exact h w (List.mem_of_getElem? hk)
  | none => simp [hk] at ho; rw [← ho.2]; rfl

/-- An entry phase is a phase in which the operation issues something. -/
theorem issuedPrimitive_entryPhase {o : Instr} {ph : Phase} (h : entryPhase o = some ph) :
    (issuedPrimitive o ph).isSome = true := by
  cases o <;> simp [entryPhase] at h <;> subst h <;> rfl

/-! ## Widths -/

theorem tableLen_le_two_pow {c : Config} : c.tableLen ≤ 2 ^ idxWidth c := by
  unfold idxWidth
  split
  · omega
  · have := Nat.lt_log2_self (n := c.tableLen - 1)
    omega

/-- The wrap by comparison is the remainder, for an index in range. -/
theorem wrap_eq_mod {n idx : Nat} (h : idx < n) : (if n ≤ idx + 1 then 0 else idx + 1) = (idx + 1) % n := by
  split
  · have : idx + 1 = n := by omega
    simp [this]
  · rw [Nat.mod_eq_of_lt (by omega)]

/-- The new index is in a table that has any entry, whatever the old index. -/
theorem nextIdx_lt {c : Config} (h : c.table ≠ []) (idx : Nat) : nextIdx c idx < c.tableLen := by
  have : 0 < c.table.length := List.length_pos_iff.2 h
  unfold nextIdx
  simp only [Config.tableLen]
  split <;> omega

theorem tableRead_isSome {c : Config} {i : Nat} : (tableRead c i).isSome = true ↔ i < c.tableLen := by
  simp [tableRead]

/-! ## The ports -/

/-- Everything a request says: the edge is no reset, the run is admitted, and the primitive of the operation and phase
stands on the ports with its arguments. -/
theorem request_eq_some {s : State} {q : Request} : request s = some q ↔
    (portsNow s).rst = false ∧ admission s = none ∧ ∃ o p ab, currentOp s = some o ∧
      issuedPrimitive o s.pc.ph = some p ∧ issueArgs s p = some ab ∧ q = Request.of s.cfg p ab.1 ab.2 := by
  unfold request
  cases (portsNow s).rst
  · cases admission s
    · simp [Option.bind_eq_some_iff, Option.map_eq_some_iff, eq_comm (a := q)]
    · simp
  · simp

/-! ## What a phase records -/

@[simp] theorem phaseS_hist (s : State) : (phaseS s).hist = s.hist ++ [.readpin (nextSample s)] := by
  unfold phaseS
  by_cases h : isPressEdge s.cfg s.prev (nextSample s) = true <;> simp [h]

theorem phaseW_hist {f : State → State} (hf : ∀ u, (f u).hist = u.hist) (s : State) :
    (phaseW f s).hist = s.hist ++ [.readpin (nextSample s)] := by
  unfold phaseW
  by_cases h : levelOf s.cfg (nextSample s) = .pressed <;> simp [h, hf]

/-! ## Placing a word -/

theorem word_place (p : Prog) (k : Nat) (w : OpWord) : (p.place k w).word? k = some w := by
  simp [Prog.place, Prog.word?]

/-! ## Runs at the event level -/

theorem runFor_zero (s : State) : runFor 0 s = .next s := rfl

theorem runFor_succ {n : Nat} {s t : State} (h : step s = .next t) : runFor (n + 1) s = runFor n t := by
  have h' : Sys2Proof.core.step s = .next t := h
  simp only [runFor, Host.Core.run, h']
  rfl

/-- A step of a stepping block is the meaning of the operation at `pc`, with the tap low. -/
theorem step_of_stepping {s : State} {o : Instr} (hs : Stepping s) (ho : currentOp s = some o)
    (hl : o.streamLegal = true) : step s = exec o { s with evtPress := false } := by
  have e : launched s = { s with evtPress := false } := by
    have h1 := hs.1; have h2 := hs.2
    cases s; simp_all [launched, beginEdge]
  rw [step_of_admitted (o := o) _ _ _ ho hl, e]
  · simp [portsNow, hs.2, PortIn.accept]
  · simp [portsNow, hs.2, PortIn.accept]
  · simp [admission, hs.1]

/-- One phase at the front of a run. -/
theorem runFor_phase {n : Nat} {s t : State} {r : Result} {o : Instr} (hs : Stepping s) (ho : currentOp s = some o)
    (hl : o.streamLegal = true) (he : exec o { s with evtPress := false } = .next t) (h' : runFor n t = r) :
    runFor (n + 1) s = r :=
  (runFor_succ ((step_of_stepping hs ho hl).trans he)).trans h'

end Sys2Proof.Machine
end

