-- ==== Sys2Proof/Tests/Slice0.lean ====
section
/-! SUPPORT. Tests: expected values from the worked examples and vectors of 95_test_vectors.md and the encodings of
30_encoding.md; and for every statement with hypotheses a named witness that meets them. -/

namespace Sys2Proof.Tests

open Sys2Proof Sys2Proof.Machine

/-! ## Helpers -/

/-- EX5 with numbers in the place of its symbolic constants (95_test_vectors.md section 0). -/
def cfg5 : Config :=
  { Config.ex5 with btnPin := 2, pwmPin := 5, pullupEn := true, clkSource := 1, onTimeUs := 3, timerSource := 2 }

/-- A launched block at position 0 of a stream, in a phase, with given `prev`, `idx` and first pin samples. -/
def at0 (is : List Instr) (ph : Phase) (prev : Bit) (idx : Nat) (bits : List Bit) : State where
  cfg := cfg5
  prog := Prog.ofList is
  pin := { bits := bits, rest := none }
  inputs := []
  prev := prev
  idx := idx
  res := .noChange
  pc := { k := 0, ph := ph }
  pr := none
  hist := []
  rd := 0
  evtPress := false
  status := .running

/-- The same block before its first step. -/
def atLaunch (ws : List OpWord) (c : Config) (ph : Phase) (idx : Nat) : State :=
  { at0 [] ph true idx [] with prog := { words := ws, thenLoops := false }, cfg := c, status := .launch }

def stateOf : Result → Option State
  | .next s => some s
  | .fault _ => none
  | .refused _ => none

def refusalOf : Result → Option Refusal
  | .next _ => none
  | .fault _ => none
  | .refused r => some r

/-! ## Decoding: the words written out from 30_encoding.md R48, R50 -/

theorem test_decode_debouncer : decode 0b0110#4 = .readpin ∧ decode 0b0111#4 = .delay ∧ decode 0b1000#4 = .poll := by decide
theorem test_decode_selector : decode 0b0101#4 = .setpr ∧ decode 0b1001#4 = .advance := by decide
theorem test_decode_loop : decode 0b1010#4 = .loop := by decide
theorem test_decode_bringup : decode 0b0000#4 = .cfgdir ∧ decode 0b0001#4 = .cfgpu ∧ decode 0b0010#4 = .selclk ∧
    decode 0b0011#4 = .cfgpwm ∧ decode 0b0100#4 = .armtmr ∧ decode 0b1011#4 = .boot := by decide
theorem test_decode_reserved : decode 0b1100#4 = .reservedC ∧ decode 0b1101#4 = .reservedD ∧
    decode 0b1110#4 = .reservedE ∧ decode 0b1111#4 = .reservedF := by decide
theorem test_table_word : decodeTableWord 8 0x8 = some .poll ∧ decodeTableWord 8 0x10 = none := by decide

/-- V40: the stream `BOOT; LOOP; LOOP` is `BAA`. -/
theorem test_hex_stream : hexOf (Prog.ofList [.boot, .loop, .loop]).words = "BAA".toList := by decide

/-- P4's script line. -/
theorem test_parse_stream : parseStream "BOOT; LOOP * 7".toList =
    some (Prog.ofList [.boot, .loop, .loop, .loop, .loop, .loop, .loop, .loop]) := by decide
theorem test_parse_auto : parseStream "AUTO".toList = some Prog.auto := by decide

/-- P3's pin line, and P1's in levels and in raw bits. -/
theorem test_parse_pin_star : parsePins cfg5 "PIN: 0*".toList = some { bits := [], rest := some false } := by decide
theorem test_parse_levels : parsePins cfg5 "LEVELS: r r p p r".toList = parsePins cfg5 "PIN: 1 1 0 0 1".toList ∧
    parsePins cfg5 "PIN: 1 1 0 0 1".toList = some { bits := [true, true, false, false, true], rest := none } := by decide

/-! ## Ill-formed terms are refused -/

/-- V40: `BAC`. -/
theorem test_wf_reserved : refusalOf (step (atLaunch [0xB#4, 0xA#4, 0xC#4] cfg5 .B0 0)) = some (.reservedOp 2) := by decide
/-- V40: `BA6`. -/
theorem test_wf_primitive : refusalOf (step (atLaunch [0xB#4, 0xA#4, 0x6#4] cfg5 .B0 0)) = some (.primitiveInStream 2) := by
  decide
theorem test_wf_emptyTable :
    refusalOf (step (atLaunch [0xB#4] { cfg5 with table := [] } .B0 0)) = some .emptyTable := by decide
/-- V34: 999 does not fit eight bits. -/
theorem test_wf_entryTooLarge :
    refusalOf (step (atLaunch [0xB#4] { cfg5 with table := [999] } .B0 0)) = some (.entryTooLarge 0) := by decide
theorem test_wf_notDecreasing :
    refusalOf (step (atLaunch [0xB#4] { cfg5 with table := [199, 199] } .B0 0)) = some (.tableNotDecreasing 1) := by decide
/-- V23. -/
theorem test_wf_index : refusalOf (step (atLaunch [0x9#4] cfg5 .A 6)) = some .indexOutOfRange := by decide
theorem test_wf_midOperation : refusalOf (step (atLaunch [0x8#4] cfg5 .D 0)) = some .midOperationLaunch := by decide
theorem test_wf_elements : Instr.streamLegal .readpin = false ∧ Instr.streamLegal .reservedC = false := by decide
theorem test_wf_config : Config.wf cfg5 = true ∧ Config.wf { cfg5 with argW := 7 } = false ∧
    meetsSectionFour cfg5 = true := by decide
/-- The summary under R10: `FREQ[i]`, `CLK_HZ`, `PRESCALER` are positive. -/
theorem test_wf_rates : Config.wf { cfg5 with clkHz := 0 } = false ∧ Config.wf { cfg5 with prescaler := 0 } = false ∧
    Config.wf { cfg5 with freq := [20000, 0] } = false := by decide

/-! ## One step of each instruction -/

/-- V1: one sample, no edge. -/
theorem test_poll_noEdge : (stateOf (step (at0 [.poll, .poll] .S true 0 [true]))).map
    (fun t => (t.hist, t.res, t.pc.k)) = some ([.readpin true], .noChange, 1) := by decide
/-- V2, first step: the edge sample is stored and the delay comes next. -/
theorem test_poll_edge : (stateOf (step (at0 [.poll] .S true 0 [false, true]))).map
    (fun t => (t.hist, t.prev, t.pc.ph)) = some ([.readpin false], false, .D) := by decide
/-- V12. -/
theorem test_readpin : (stateOf (exec .readpin { at0 [.poll] .S true 0 [true, true, true, false] with rd := 3 })).map
    (fun t => (t.hist, t.rd, t.prev)) = some ([.readpin false], 4, true) := by decide
/-- V13. -/
theorem test_delay : (stateOf (exec .delay (at0 [.poll] .D false 0 []))).map
    (fun t => (t.hist, t.rd, t.pc.ph)) = some ([.delay 10], 0, .D) := by decide
/-- V14. -/
theorem test_advance : (stateOf (step (at0 [.advance] .A true 0 []))).map
    (fun t => (t.hist, t.idx, t.pr)) = some ([.setpr 159], 1, some 159) := by decide
/-- V22: the increment needs the extra bit. -/
theorem test_advance_wraps : (stateOf (step { at0 [.advance] .A true 3 [] with
    cfg := { cfg5 with table := [199, 159, 99, 79] } })).map (fun t => (t.hist, t.idx)) = some ([.setpr 199], 0) := by decide
/-- The event encoding example of section 2.2. -/
theorem test_setpr : (stateOf (exec .setpr (at0 [.advance] .A true 1 []))).map (fun t => (t.hist, t.pr)) =
      some ([.setpr 159], some 159) ∧
    (Event.setpr 159).bus cfg5 = { op := 0x5#4, a := 0x9F, b := 0, r := none } := by decide
/-- V26, last step: the wrap inside `LOOP`. -/
theorem test_loop_advance : (stateOf (step (at0 [.loop, .loop] .A false 4 []))).map
    (fun t => (t.hist, t.idx, t.pc)) = some ([.setpr 199], 0, ⟨1, .S⟩) := by decide
/-- V25, third step: the release leads to `A`. -/
theorem test_loop_release : (stateOf (step (at0 [.loop] .W false 0 [true]))).map
    (fun t => (t.hist, t.res, t.pc.ph)) = some ([.readpin true], .press, .A) := by decide
/-- V29, first step. -/
theorem test_boot_first : (stateOf (step (at0 [.boot] .B0 true 0 []))).map (fun t => (t.hist, t.pc.ph)) =
    some ([.cfgdir 2 false], .B1) := by decide
/-- V29b, last step: `PR` is entry 0 and `idx` stays. -/
theorem test_boot_last : (stateOf (step (at0 [.boot, .loop] .B5 true 3 []))).map (fun t => (t.hist, t.pr, t.idx)) =
    some ([.armtmr 199 1], some 199, 3) := by decide
/-- `BOOT6`: the two arguments of `CFGDIR`. -/
theorem test_cfgdir : (stateOf (exec .cfgdir (at0 [.boot] .B0 true 0 []))).map (fun t => t.hist) = some [.cfgdir 2 false] ∧
    (stateOf (exec .cfgdir (at0 [.boot] .B1 true 0 []))).map (fun t => t.hist) = some [.cfgdir 5 true] := by decide
theorem test_cfgpu : (stateOf (exec .cfgpu (at0 [.boot] .B2 true 0 []))).map (fun t => t.hist) = some [.cfgpu 2 true] := by
  decide
theorem test_selclk : (stateOf (exec .selclk (at0 [.boot] .B3 true 0 []))).map (fun t => t.hist) =
    some [.selclk 1 16000000] := by decide
theorem test_cfgpwm : (stateOf (exec .cfgpwm (at0 [.boot] .B4 true 0 []))).map (fun t => t.hist) =
    some [.cfgpwm 3 2] := by decide
theorem test_armtmr : (stateOf (exec .armtmr (at0 [.boot] .B5 true 3 []))).map (fun t => (t.hist, t.pr)) =
    some ([.armtmr 199 1], some 199) := by decide
theorem test_reserved : refusalOf (exec .reservedC (at0 [] .B0 true 0 [])) = some (.reservedOp 0) ∧
    refusalOf (exec .reservedF (at0 [] .B0 true 0 [])) = some (.reservedOp 0) := by decide

/-! ## The ports -/

/-- 70_reset_and_hazards.md R125: a pending `DELAY` request is there while `rst` is low and falls when `rst` is high. -/
theorem test_ports_reset : (portsOut (at0 [.poll] .D false 0 [])).request = some { sel := 0b111#3, a := 10, b := 0 } ∧
    (portsOut { at0 [.poll] .D false 0 [] with inputs := [⟨true, false⟩] }).primReq = false := by decide
/-- 20_memory.md R44: `prim_rdata` carries the pin bit where a `READPIN` is acknowledged, and nothing else. -/
theorem test_ports_rdata : (portsIn (at0 [.poll] .W false 0 [true])).primRdata = some true ∧
    (portsIn { at0 [.poll] .W false 0 [true] with inputs := [⟨false, false⟩] }).primRdata = none ∧
    (portsIn (at0 [.poll] .D false 0 [true])).primRdata = none := by decide

/-! ## The conversion formula: V30 to V36 -/

theorem test_periodOf_exact : periodOf 16000000 1 20000 = some 199 ∧ periodOf 16000000 1 100000 = some 39 ∧
    periodOf 64000000 4 20000 = some 199 := by decide
theorem test_periodOf_corners : periodOf 16000000 1 30000 = some 132 ∧ periodOf 16000000 1 4000000 = some 0 ∧
    periodOf 16000000 1 5000000 = none := by decide
theorem test_freqOf : freqOf 16000000 1 199 = 20000 ∧ freqOf 16000000 1 132 = 4000000 / 133 := by
  constructor <;> norm_num [freqOf]
theorem test_table_is_formula : tableMatchesFreq cfg5 = true := by decide

/-! ## Witnesses: encoding and the primitives -/

/-- The largest argument `ARG_W` bits hold. -/
theorem witness_PackedEventReadsBack :
    ((Event.setpr (2 ^ 32 - 1)).bus cfg5).a < 2 ^ cfg5.argW ∧ ((Event.setpr (2 ^ 32 - 1)).bus cfg5).b < 2 ^ cfg5.argW := by
  decide
/-- The first and the last unused phase code. -/
theorem witness_PhaseAndResultCodes : (∀ p : Phase, p.code ≠ 0x6#4) ∧ (∀ p : Phase, p.code ≠ 0xF#4) := by
  constructor <;> intro p <;> cases p <;> decide
theorem witness_PseudoOperationsExpand : 6 < 7 ∧ expand [.times .loop 7, .one .poll] =
    Prog.ofList [.loop, .loop, .loop, .loop, .loop, .loop, .loop, .poll] := by decide
theorem witness_CfgdirRecordsItsArguments :
    (at0 [.boot] .B0 true 0 []).pc.ph = .B0 ∧ (at0 [.boot] .B1 true 0 []).pc.ph = .B1 := by decide
theorem witness_ArmtmrLoadsEntryZero : (at0 [.boot] .B5 true 0 []).cfg.table[0]? = some 199 := by decide
/-- The last entry, and an entry equal to `PR_MAX`. -/
theorem witness_SetprWritesPeriod : (at0 [.advance] .A true 4 []).cfg.table[4]? = some 39 ∧ cfg5.legal = true ∧
    { cfg5 with table := [255] }.legal = true ∧ { cfg5 with table := [255] }.table[0]? = some 255 := by decide
/-- The first index past the table; an empty table in `B5` and in `A`. -/
theorem witness_MissingEntryIsRefused : (at0 [.advance] .A true 5 []).cfg.table[5]? = none ∧
    { at0 [.boot] .B5 true 0 [] with cfg := { cfg5 with table := [] } }.cfg.table = [] ∧
    (at0 [.boot] .B5 true 0 []).pc.ph = .B5 ∧ (at0 [.loop] .A true 0 []).pc.ph = .A := by decide
/-- Two samples that differ. -/
theorem witness_ReadpinConsumesOneSample : (at0 [.poll] .S true 0 [false, true]).pin.sample 0 = false ∧
    (at0 [.poll] .S true 0 [false, true]).pin.sample (0 + 1) = true := by decide
theorem witness_ReservedCodesRefused : Instr.reservedC = .reservedC ∨ Instr.reservedC = .reservedD ∨
    Instr.reservedC = .reservedE ∨ Instr.reservedC = .reservedF := by decide

/-! ## Witnesses: the phases -/

theorem witness_CompletionEntersNextOperation :
    opAt (at0 [.poll, .boot] .S true 0 []) 1 = some .boot ∧ opAt (at0 [.poll, .poll] .S true 0 []) 1 = some .poll ∧
    opAt (at0 [.poll, .loop] .S true 0 []) 1 = some .loop ∧ opAt (at0 [.poll, .advance] .S true 0 []) 1 = some .advance ∧
    opAt (at0 [.poll] .S true 0 []) 1 = none := by decide
theorem witness_SamplePhaseTestsEdge_edge (i : Instr) (_ : i = .poll ∨ i = .loop) :
    (at0 [i] .S true 0 [false]).pc.ph = .S ∧ levelOf cfg5 (at0 [i] .S true 0 [false]).prev = .released ∧
    levelOf cfg5 ((at0 [i] .S true 0 [false]).pin.sample 0) = .pressed := ⟨rfl, rfl, rfl⟩
theorem witness_SamplePhaseTestsEdge_noEdge : (at0 [.poll] .S false 0 [true]).pc.ph = .S ∧
    ¬ (levelOf cfg5 (at0 [.poll] .S false 0 [true]).prev = .released ∧
      levelOf cfg5 ((at0 [.poll] .S false 0 [true]).pin.sample 0) = .pressed) := by decide
theorem witness_SamplePhaseTestsEdge_later : (at0 [.poll] .D false 0 []).pc.ph = .D ∧
    (at0 [.loop] .W false 0 []).pc.ph = .W := by decide
theorem witness_DelayPhaseOnlyDelays : (Instr.loop = .poll ∨ Instr.loop = .loop) ∧ (at0 [.loop] .D false 0 []).pc.ph = .D := by
  decide
theorem witness_WaitPhaseHoldsUntilRelease : (at0 [.poll] .W false 0 [false]).pc.ph = .W ∧
    levelOf cfg5 ((at0 [.poll] .W false 0 [false]).pin.sample 0) = .pressed ∧
    levelOf cfg5 ((at0 [.poll] .W false 0 [true]).pin.sample 0) = .released ∧
    levelOf cfg5 ((at0 [.loop] .W false 0 [true]).pin.sample 0) = .released := by decide
/-- V4. -/
theorem witness_SustainedHoldIsNoChange : (at0 [.poll] .S false 0 [false]).pc.ph = .S ∧
    levelOf cfg5 (at0 [.poll] .S false 0 [false]).prev = .pressed ∧
    levelOf cfg5 ((at0 [.poll] .S false 0 [false]).pin.sample 0) = .pressed := by decide
theorem witness_PollTouchesNoSelector : (at0 [.poll] .S true 0 []).pc.ph = .S ∧ (at0 [.poll] .D true 0 []).pc.ph = .D ∧
    (at0 [.poll] .W true 0 []).pc.ph = .W := by decide

/-- A running block with nothing listed for its pins is stepping. -/
theorem stepping_at0 (is : List Instr) (ph : Phase) (prev : Bit) (idx : Nat) (bits : List Bit) :
    Stepping (at0 is ph prev idx bits) := ⟨rfl, rfl⟩

/-- V1, and V2 and V3: the release at the first sample of the wait, and at the third. -/
theorem witness_PollBigStep_noEdge : Stepping (at0 [.poll] .S true 0 [true]) ∧
    currentOp (at0 [.poll] .S true 0 [true]) = some .poll ∧
    ¬ (levelOf cfg5 true = .released ∧ levelOf cfg5 ((at0 [.poll] .S true 0 [true]).pin.sample 0) = .pressed) :=
  ⟨stepping_at0 _ _ _ _ _, by decide, by decide⟩
theorem witness_PollBigStep_first : let s := at0 [.poll] .S true 0 [false, true]
    Stepping s ∧ currentOp s = some .poll ∧ s.pc.ph = .S ∧ levelOf s.cfg s.prev = .released ∧
    levelOf s.cfg (s.pin.sample s.rd) = .pressed ∧ 1 ≤ 1 ∧
    (∀ j, 1 ≤ j → j < 1 → levelOf s.cfg (s.pin.sample (s.rd + j)) = .pressed) ∧
    levelOf s.cfg (s.pin.sample (s.rd + 1)) = .released :=
  ⟨stepping_at0 _ _ _ _ _, by decide, by decide, by decide, by decide, by decide, by omega, by decide⟩
theorem witness_PollBigStep_third : let s := at0 [.poll] .S true 0 [false, false, false, true]
    Stepping s ∧ currentOp s = some .poll ∧ s.pc.ph = .S ∧ levelOf s.cfg s.prev = .released ∧
    levelOf s.cfg (s.pin.sample s.rd) = .pressed ∧ 1 ≤ 3 ∧
    (∀ j, j < 3 → 1 ≤ j → levelOf s.cfg (s.pin.sample (s.rd + j)) = .pressed) ∧
    levelOf s.cfg (s.pin.sample (s.rd + 3)) = .released :=
  ⟨stepping_at0 _ _ _ _ _, by decide, by decide, by decide, by decide, by decide, by decide, by decide⟩
/-- V26: the release at the second sample of the wait, from the last index. -/
theorem witness_LoopBigStep : let s := at0 [.loop] .S true 4 [false, false, true]
    Stepping s ∧ currentOp s = some .loop ∧ s.pc.ph = .S ∧ levelOf s.cfg s.prev = .released ∧
    levelOf s.cfg (s.pin.sample s.rd) = .pressed ∧ 1 ≤ 2 ∧
    (∀ j, j < 2 → 1 ≤ j → levelOf s.cfg (s.pin.sample (s.rd + j)) = .pressed) ∧
    levelOf s.cfg (s.pin.sample (s.rd + 2)) = .released ∧
    s.idx < s.cfg.tableLen ∧ s.cfg.table[(s.idx + 1) % s.cfg.tableLen]? = some 199 :=
  ⟨stepping_at0 _ _ _ _ _, by decide, by decide, by decide, by decide, by decide, by decide, by decide, by decide, by decide⟩
/-- P3: `PIN: 0*`. -/
theorem witness_StuckButtonHangs : let s := { at0 [.loop] .S true 0 [] with pin := { bits := [], rest := some false } }
    Stepping s ∧ currentOp s = some .loop ∧ s.pc.ph = .S ∧ levelOf s.cfg s.prev = .released ∧
    (∀ j, levelOf s.cfg (s.pin.sample (s.rd + j)) = .pressed) :=
  ⟨⟨rfl, rfl⟩, by decide, by decide, by decide, fun _ => rfl⟩
/-- The last index and the one before it. -/
theorem witness_AdvancePhaseRotates : (at0 [.advance] .A true 4 []).pc.ph = .A ∧ 4 < cfg5.tableLen ∧
    cfg5.table[if cfg5.tableLen ≤ 4 + 1 then 0 else 4 + 1]? = some 199 ∧
    cfg5.table[if cfg5.tableLen ≤ 3 + 1 then 0 else 3 + 1]? = some 39 := by decide
theorem witness_IncrementIsModular : 4 < cfg5.tableLen ∧ 0 < { cfg5 with table := [199] }.tableLen := by decide
theorem witness_IndexWidthIsLeast : 1 ≤ { cfg5 with table := [199] }.tableLen ∧ 4 < cfg5.tableLen ∧
    1 ≤ 3 ∧ cfg5.tableLen ≤ 2 ^ 3 ∧ idxWidth cfg5 = 3 := by decide
/-- L1-2: five advances from index 3. -/
theorem witness_AdvanceIsPeriodic : let s := at0 [.advance, .advance, .advance, .advance, .advance] .A true 3 []
    Stepping s ∧ s.pc.ph = .A ∧ s.idx < s.cfg.tableLen ∧ 1 ≤ 5 ∧ (∀ j, j < 5 → opAt s (s.pc.k + j) = some .advance) ∧
    5 = s.cfg.tableLen :=
  ⟨stepping_at0 _ _ _ _ _, by decide, by decide, by decide, by decide, by decide⟩
theorem witness_BootPhases : (at0 [.boot] .B0 true 0 []).pc.ph = .B0 ∧ (at0 [.boot] .B1 true 0 []).pc.ph = .B1 ∧
    (at0 [.boot] .B2 true 0 []).pc.ph = .B2 ∧ (at0 [.boot] .B3 true 0 []).pc.ph = .B3 ∧
    (at0 [.boot] .B4 true 0 []).pc.ph = .B4 ∧ (at0 [.boot] .B5 true 0 []).pc.ph = .B5 ∧ cfg5.table[0]? = some 199 := by
  decide
theorem witness_BootBigStep : let s := at0 [.boot, .loop] .B0 true 0 []
    Stepping s ∧ currentOp s = some .boot ∧ s.pc.ph = .B0 ∧ s.cfg.table[0]? = some 199 :=
  ⟨stepping_at0 _ _ _ _ _, by decide, by decide, by decide⟩

/-! ## Witnesses: the step -/

/-- A step outside `BOOT` that changes `PR`. -/
theorem witness_OnlyBootConfigures : let s := at0 [.advance] .A true 0 []
    (portsNow s).rst = false ∧ currentOp s ≠ some .boot ∧ ∃ t, step s = .next t ∧ t.pr ≠ s.pr :=
  ⟨rfl, by decide, _, rfl, by decide⟩
theorem witness_StepRunsDecodedOperation : let s := at0 [.poll] .S true 0 [false]
    (portsNow s).rst = false ∧ (portsNow s).ack = true ∧ admission s = none ∧ s.prog.word? s.pc.k = some 0x8#4 ∧
    (decode 0x8#4).streamLegal = true := by decide
theorem witness_PlacedWordRunsNext : Instr.setpr.isReserved = false ∧ Instr.boot.isReserved = false ∧
    (at0 [.poll] .S true 4 []).idx < (at0 [.poll] .S true 4 []).cfg.tableLen := by decide
theorem witness_StepIssuesOnePrimitive : let s := at0 [.poll] .S true 0 [false]
    (portsNow s).rst = false ∧ (portsNow s).ack = true ∧ ∃ t, step s = .next t := ⟨rfl, rfl, _, rfl⟩
theorem witness_RequestIsRecordedEvent : let s := at0 [.poll] .S true 0 [false]
    (portsNow s).ack = true ∧ request s = some { sel := 0b110#3, a := 2, b := 0 } ∧
    ((Event.readpin false).bus s.cfg).a < 2 ^ s.cfg.argW := by decide
/-- The request of the entry at the new index, in a running state at a reachable pair. -/
theorem witness_OutputPortsShowState : let s := at0 [.advance] .A true 4 []
    s.status = .running ∧ (portsNow s).rst = false ∧ ReachablePair s ∧ s.cfg.table ≠ [] ∧
    request s = some { sel := 0b101#3, a := 199, b := 0 } :=
  ⟨rfl, rfl, ⟨.advance, .setpr, by decide, by decide⟩, by decide, by decide⟩
/-- One wait edge, then an accepting one; and one wait edge, then reset. -/
theorem witness_RequestHeldUntilAck : let s := { at0 [.poll] .D false 0 [] with inputs := [⟨false, false⟩] }
    let s' := { s with inputs := [⟨false, false⟩, ⟨true, false⟩] }
    (portsNow s).ack = false ∧ request s = some { sel := 0b111#3, a := 10, b := 0 } ∧
    (∃ t, step s = .next t ∧ (portsNow t).rst = false) ∧ (∃ t, step s' = .next t ∧ (portsNow t).rst = true) :=
  ⟨rfl, by decide, ⟨_, rfl, rfl⟩, _, rfl, rfl⟩
/-- A launch and a running state. -/
theorem witness_WaitStatesChangeNothing : admission (atLaunch [0xB#4, 0xA#4] cfg5 .B0 0) = none ∧
    admission (at0 [.poll] .S true 0 []) = none := by decide
/-- Reset with `prim_ack` high, and the entry phase of the stream's first operation. -/
theorem witness_ResetWinsAtEveryEdge : let s := { at0 [.poll] .W false 3 [] with inputs := [⟨true, true⟩] }
    (portsNow s).rst = true ∧ opAt s 0 = some .poll ∧ entryPhase .poll = some .S := by decide
theorem witness_EndedRunTakesNoStep : let s := { at0 [.poll] .S true 0 [] with status := .ended }
    s.status = .ended ∧ (portsNow s).rst = false := by decide
theorem witness_LaunchPassesExactly : launchRefusal (atLaunch [0xB#4, 0xA#4] cfg5 .B0 4) = none := by decide
theorem witness_StreamRefusalNamesFirst : streamRefusal 0 [0xB#4, 0xC#4, 0x6#4] = some (.reservedOp 1) ∧
    streamRefusal 0 [0x7#4, 0xF#4] = some (.primitiveInStream 0) := by decide
theorem witness_ConfigRefusalNamesViolation : configRefusal { cfg5 with table := [] } = some .emptyTable ∧
    configRefusal { cfg5 with table := [255, 256] } = some (.entryTooLarge 1) ∧
    configRefusal { cfg5 with table := [199, 99, 99] } = some (.tableNotDecreasing 2) := by decide
theorem witness_IllFormedLaunchRefused : let s := atLaunch [0x9#4] cfg5 .A 5
    s.status = .launch ∧ (portsNow s).rst = false ∧ launchRefusal s = some .indexOutOfRange := by decide

/-! ## Witnesses: invariants -/

theorem legalParams_at0 {is : List Instr} {ph : Phase} {prev : Bit} {idx : Nat} {bits : List Bit}
    (h : ∀ w ∈ (Prog.ofList is).words, (decode w).streamLegal = true) (h0 : (opAt (at0 is ph prev idx bits) 0).isSome = true) :
    LegalParams (at0 is ph prev idx bits) := ⟨(by decide : cfg5.legal = true), h, h0⟩

/-- A running state in the wait of a poll, at the last index. -/
theorem witness_RunSafeProgresses : RunSafe (at0 [.poll] .W false 4 [true]) ∧ (at0 [.poll] .W false 4 [true]).status ≠ .ended :=
  ⟨⟨legalParams_at0 (by decide) (by decide), by decide, (fun h => nomatch h), fun _ => ⟨.poll, .readpin, by decide, by decide⟩⟩,
    by decide⟩
/-- An ended run that is reset. -/
theorem witness_RunSafeProgresses_ended :
    let s := { at0 [.poll] .W false 4 [true] with status := .ended, inputs := [⟨true, false⟩] }
    RunSafe s ∧ ∃ t, step s = .next t :=
  ⟨⟨⟨(by decide : cfg5.legal = true), by decide, by decide⟩, by decide, (fun h => nomatch h), (fun h => nomatch h)⟩, _, rfl⟩
theorem witness_RunSafeAtLaunch : let s := atLaunch [0xB#4, 0xA#4] cfg5 .B0 4
    s.status = .launch ∧ launchRefusal s = none ∧ (opAt s 0).isSome = true := by decide
/-- V14's start with `PR` and `idx` as the reset values leave them. -/
theorem witness_HistoryDeterminesState : let s := at0 [.advance] .A true 0 []
    RunSafe s ∧ HistDetermines s ∧ ∃ t, step s = .next t :=
  ⟨⟨legalParams_at0 (by decide) (by decide), by decide, (fun h => nomatch h), fun _ => ⟨.advance, .setpr, by decide, by decide⟩⟩,
    ⟨rfl, rfl, rfl, rfl⟩, _, rfl⟩
/-- In the main loop, after the bring-up and one idle iteration, at the start of the next. -/
theorem witness_AutoTraceKept_loop : let s := { at0 [] .S true 0 [true, false] with
      prog := Prog.auto, pc := ⟨2, .S⟩, rd := 1, pr := some 199, hist := bootEvents cfg5 199 ++ [.readpin true] }
    AutoTrace s ∧ ∃ t, step s = .next t :=
  ⟨⟨rfl, .inr ⟨by decide, rfl, 0, [.readpin true], true, [], 199, .idle 0 [] true true .start (by decide), .sample true,
    by decide, by decide, by decide, by decide⟩⟩, _, rfl⟩
/-- After a whole press, in the wait of the next one's sample: V25, then the release seen, then a second press held once. -/
theorem witness_AutoTraceKept_press : let s := { at0 [] .W false 1 [] with
      prog := Prog.auto, pc := ⟨3, .W⟩, pr := some 159,
      pin := { bits := [], rest := some true },
      hist := bootEvents cfg5 199 ++ [.readpin false, .delay 10, .readpin true, .setpr 159, .readpin true, .readpin false,
        .delay 10, .readpin false] }
    AutoTrace s ∧ ∃ t, step s = .next t :=
  ⟨⟨rfl, .inr ⟨by decide, rfl, 1, [.readpin false, .delay 10, .readpin true, .setpr 159, .readpin true], true,
    [.readpin false, .delay 10, .readpin false], 199,
    .idle 1 [.readpin false, .delay 10, .readpin true, .setpr 159] false true
      (.press 0 [] true 0 159 .start (by decide) (by decide)) (by decide),
    .wait true 1 (by decide), by decide, by decide, by decide, by decide⟩⟩, _, rfl⟩
/-- At the start of the bring-up. -/
theorem witness_AutoTraceKept_boot : AutoTrace (State.start cfg5 Prog.auto ⟨[], none⟩) ∧
    ∃ t, step (State.start cfg5 Prog.auto ⟨[], none⟩) = .next t :=
  ⟨⟨rfl, .inl ⟨rfl, rfl, rfl, rfl, 0, 199, rfl, rfl, rfl⟩⟩, _, rfl⟩
theorem witness_PressedWhileWaitingKept : let s := at0 [.loop] .D false 0 []
    PressedWhileWaiting s ∧ s.status = .running ∧ s.pc.ph = .D ∧ ∃ t, step s = .next t := ⟨fun _ _ => by decide, rfl, rfl, _, rfl⟩
theorem witness_ParametersNeverWritten : ∃ t, step (at0 [.advance] .A true 4 []) = .next t := ⟨_, rfl⟩
/-- Both sides of the statement: a step taken, and none at an unreachable pair. -/
theorem witness_StepTakenExactly : (∃ t, step (at0 [.poll] .D true 0 []) = .next t) ∧
    refusalOf (step (at0 [.poll] .A true 0 [])) = some .unreachablePhase := ⟨⟨_, rfl⟩, by decide⟩
/-- A poll changes `prev` from released to pressed; reset changes it back; a phase that is not `S`. -/
theorem witness_PrevOnlyInSamplePhase :
    (∃ t, step (at0 [.poll] .S true 0 [false]) = .next t ∧ t.prev ≠ true) ∧
    (∃ t, step { at0 [.poll] .W false 0 [] with inputs := [⟨true, false⟩] } = .next t ∧ t.prev ≠ false) ∧
    (at0 [.loop] .W false 0 [true]).pc.ph ≠ .S ∧ (∃ t, step (at0 [.loop] .W false 0 [true]) = .next t) :=
  ⟨⟨_, rfl, by decide⟩, ⟨_, rfl, by decide⟩, by decide, _, rfl⟩
/-- Steps that change `idx` and `res`, by the operations and by reset; a phase that is not `A`. -/
theorem witness_IndexAndResultAccess :
    (∃ t, step (at0 [.advance] .A true 4 []) = .next t ∧ t.idx ≠ 4) ∧
    (∃ t, step { at0 [.advance] .A true 4 [] with inputs := [⟨true, true⟩] } = .next t ∧ t.idx ≠ 4) ∧
    (∃ t, step (at0 [.poll] .W false 0 [true]) = .next t ∧ t.res ≠ .noChange) ∧
    (∃ t, step { at0 [.poll] .S true 0 [true] with res := .press } = .next t ∧ t.res ≠ .press) ∧
    (∃ t, step { at0 [.poll] .D true 0 [] with res := .press, inputs := [⟨true, true⟩] } = .next t ∧ t.res ≠ .press) ∧
    (at0 [.poll] .S true 0 [true]).pc.ph ≠ .A ∧ (∃ t, step (at0 [.poll] .S true 0 [true]) = .next t) :=
  ⟨⟨_, rfl, by decide⟩, ⟨_, rfl, by decide⟩, ⟨_, rfl, by decide⟩, ⟨_, rfl, by decide⟩, ⟨_, rfl, by decide⟩, by decide, _, rfl⟩
/-- Two states that differ in all three observed pieces; one steps, the other pair has ended. -/
theorem witness_ObservationsNeverRead : let s := at0 [.poll] .S true 0 [true]
    let s' := { s with hist := [.delay 10], pr := some 7, evtPress := true }
    s ≠ s' ∧ unobserved s = unobserved s' ∧ (∃ t, step s = .next t) ∧ (portsNow s).rst = false ∧
    unobserved { s with status := .ended } = unobserved { s' with status := .ended } ∧
    step { s with status := .ended } = .refused .ended :=
  ⟨by decide, rfl, ⟨_, rfl⟩, rfl, rfl, rfl⟩
theorem witness_EvtPressMarksRelease : ∃ t, step (at0 [.loop] .W false 0 [true]) = .next t ∧ t.evtPress = true := ⟨_, rfl, rfl⟩
theorem witness_OnlyUnreachablePairsStop : Instr.poll.streamLegal = true ∧ cfg5.table ≠ [] ∧
    issuedPrimitive .poll (at0 [.poll] .A true 0 []).pc.ph = none ∧
    (issuedPrimitive .poll (at0 [.poll] .W true 0 []).pc.ph).isSome = true := by decide

/-! ## Witnesses: the configuration formula -/

/-- V35: the largest target the clock can make. -/
theorem witness_FormulaErrsUpward : 0 < 1 ∧ 0 < 4000000 ∧ periodOf 16000000 1 4000000 = some 0 := by decide
theorem witness_LaterEntriesAreFaster : cfg5.legal = true ∧ 0 < cfg5.clkHz ∧ 0 < cfg5.prescaler ∧ 3 < 4 ∧
    cfg5.table[3]? = some 79 ∧ cfg5.table[4]? = some 39 := by decide

end Sys2Proof.Tests
end

section
/-! PROOFS of the family 00_scope.md: the width of the index, the primitive a step issues, the refusals of a
configuration. -/

namespace Sys2Proof.Machine

/-! ## The width of the index (00_scope.md R10) -/

theorem one_le_idxWidth (c : Config) : 1 ≤ idxWidth c := by
  unfold idxWidth; split <;> omega

/-- A width of at least 1 that holds every index is no smaller than `IDX_WIDTH`. -/
theorem idxWidth_le_of_tableLen_le {c : Config} {w : Nat} (hw : 1 ≤ w) (h : c.tableLen ≤ 2 ^ w) : idxWidth c ≤ w := by
  unfold idxWidth
  split
  · exact hw
  · exact (Nat.log2_lt (by omega)).2 (by omega)

/-- The incremented index fits one bit more than `IDX_WIDTH`. -/
theorem succ_lt_two_pow_idxWidth_succ {c : Config} {idx : Nat} (h : idx < c.tableLen) :
    idx + 1 < 2 ^ (idxWidth c + 1) := by
  have hlen : c.tableLen ≤ 2 ^ idxWidth c := tableLen_le_two_pow
  rw [Nat.pow_succ]
  omega

/-- Settles O27: the upper bound on the width is that of the logarithm of the last index. -/
theorem indexWidthIsLeast : Obligations.IndexWidthIsLeast := fun c _ =>
  ⟨one_le_idxWidth c, tableLen_le_two_pow, fun _ => succ_lt_two_pow_idxWidth_succ, fun _ => idxWidth_le_of_tableLen_le⟩

/-! ## The primitive a step issues (00_scope.md R12) -/

/-- `t` is `s` after operation `o` issued the one primitive that `e` records: the primitive of `o` in the phase of `s`. -/
structure Issues (o : Instr) (e : Event) (s t : State) : Prop where
  hist : t.hist = s.hist ++ [e]
  primitive : issuedPrimitive o s.pc.ph = some e.instr
  rd : t.rd = s.rd + (if e.instr = .readpin then 1 else 0)

/-- Every phase move issues exactly one primitive, the one of its operation and phase. -/
theorem Move.issues_one {o : Instr} {s t : State} (h : Move o s t) : ∃ e, Issues o e s t := by
  cases h with
  | boot0 _ hp => exact ⟨_, rfl, by rw [hp]; rfl, rfl⟩
  | boot1 _ hp => exact ⟨_, rfl, by rw [hp]; rfl, rfl⟩
  | boot2 _ hp => exact ⟨_, rfl, by rw [hp]; rfl, rfl⟩
  | boot3 _ hp => exact ⟨_, rfl, by rw [hp]; rfl, rfl⟩
  | boot4 _ hp => exact ⟨_, rfl, by rw [hp]; rfl, rfl⟩
  | boot5 _ v hp _ => exact ⟨_, complete_hist _, by rw [hp]; rfl, complete_rd _⟩
  | edge _ _ ho hp _ _ => exact ⟨_, rfl, by rw [hp]; rcases ho with rfl | rfl <;> rfl, rfl⟩
  | noEdge _ _ ho hp _ => exact ⟨_, complete_hist _, by rw [hp]; rcases ho with rfl | rfl <;> rfl, complete_rd _⟩
  | delay _ _ ho hp => exact ⟨_, rfl, by rw [hp]; rcases ho with rfl | rfl <;> rfl, rfl⟩
  | stay _ _ ho hp _ => exact ⟨_, rfl, by rw [hp]; rcases ho with rfl | rfl <;> rfl, rfl⟩
  | pollDone _ hp _ => exact ⟨_, complete_hist _, by rw [hp]; rfl, complete_rd _⟩
  | loopRelease _ hp _ => exact ⟨_, rfl, by rw [hp]; rfl, rfl⟩
  | rotate _ _ v ho hp _ => exact ⟨_, complete_hist _, by rw [hp]; rcases ho with rfl | rfl <;> rfl, complete_rd _⟩

/-- Settles O34: of the three things a step can do, an accepting edge without reset leaves the move of the operation,
and every move issues one primitive. -/
theorem stepIssuesOnePrimitive : Obligations.StepIssuesOnePrimitive := by
  intro s t hr ha h
  rcases step_cases h with ⟨hr', _⟩ | ⟨_, _, ha', _⟩ | ⟨_, _, _, o, ho, _, hm⟩
  · simp [hr] at hr'
  · simp [ha] at ha'
  · obtain ⟨e, hhist, hprim, hrd⟩ := hm.issues_one
    exact ⟨o, e, ho, hhist, hprim, hrd⟩

/-! ## The refusals of a configuration (00_scope.md R7, 41_selector.md R84) -/

/-- The place `firstTooLarge` names holds an entry above `max`, and no entry before it does. -/
theorem firstTooLarge_eq_some {max i k : Nat} {l : List Nat} (h : firstTooLarge max i l = some k) :
    ∃ j v, k = i + j ∧ l[j]? = some v ∧ max < v ∧ ∀ j' u, j' < j → l[j']? = some u → u ≤ max := by
  induction l generalizing i with
  | nil => simp [firstTooLarge] at h
  | cons a l ih =>
    by_cases ha : max < a
    · simp only [firstTooLarge, ha, if_true, Option.some.injEq] at h
      exact ⟨0, a, h.symm, rfl, ha, fun _ _ hj => absurd hj (Nat.not_lt_zero _)⟩
    · simp only [firstTooLarge, ha, if_false] at h
      obtain ⟨j, v, hk, hv, hlt, hbefore⟩ := ih h
      refine ⟨j + 1, v, by omega, hv, hlt, fun j' u hj hu => ?_⟩
      cases j' with
      | zero =>
        obtain rfl : a = u := by simpa using hu
        omega
      | succ j' => exact hbefore j' u (by omega) hu

/-- The place `firstNotDecreasing` names holds an entry not smaller than the one before it. -/
theorem firstNotDecreasing_eq_some {i k : Nat} {l : List Nat} (h : firstNotDecreasing i l = some k) :
    ∃ j a b, k = i + j ∧ l[j]? = some a ∧ l[j + 1]? = some b ∧ a ≤ b := by
  induction l generalizing i with
  | nil => simp [firstNotDecreasing] at h
  | cons a l ih =>
    cases l with
    | nil => simp [firstNotDecreasing] at h
    | cons b l =>
      by_cases hab : a ≤ b
      · simp only [firstNotDecreasing, hab, if_true, Option.some.injEq] at h
        exact ⟨0, a, b, h.symm, rfl, rfl, hab⟩
      · simp only [firstNotDecreasing, hab, if_false] at h
        obtain ⟨j, x, y, hk, hx, hy, hxy⟩ := ih h
        exact ⟨j + 1, x, y, by omega, hx, hy, hxy⟩

/-- What a refusal of a configuration says, check by check in the order of 60_exceptions.md R112. -/
theorem configRefusal_cases {c : Config} {r : Refusal} (h : configRefusal c = some r) :
    (r = .emptyTable ∧ c.table = []) ∨
    (∃ i, r = .entryTooLarge i ∧ firstTooLarge c.prMax 0 c.table = some i) ∨
    (∃ i, r = .tableNotDecreasing i ∧ firstNotDecreasing 1 c.table = some i) := by
  unfold configRefusal at h
  split at h
  · next he => exact .inl ⟨by simpa using h.symm, by simpa using he⟩
  · split at h
    · next i hi => exact .inr (.inl ⟨i, by simpa using h.symm, hi⟩)
    · split at h
      · next i hi => exact .inr (.inr ⟨i, by simpa using h.symm, hi⟩)
      · cases h

/-- Settles O45: each check that refuses names a place at which its list search found the violation. -/
theorem configRefusalNamesViolation : Obligations.ConfigRefusalNamesViolation := by
  intro c r h
  rcases configRefusal_cases h with hempty | ⟨i, rfl, hi⟩ | ⟨i, rfl, hi⟩
  · exact .inl hempty
  · obtain ⟨j, v, rfl, hv, hlt, hbefore⟩ := firstTooLarge_eq_some hi
    rw [Nat.zero_add]
    exact .inr (.inl ⟨j, v, rfl, hv, hlt, hbefore⟩)
  · obtain ⟨j, a, b, rfl, ha, hb, hab⟩ := firstNotDecreasing_eq_some hi
    rw [Nat.add_comm]
    exact .inr (.inr ⟨j, a, b, rfl, ha, hb, hab⟩)

end Sys2Proof.Machine
end

section
/-! PROOFS of the family 10_state.md: who writes `prev`, `idx` and `res`, what a step does not read, the state after reset
and the launch states of a well-formed run. -/

namespace Sys2Proof.Machine

/-! ## What a move writes (10_state.md R13, R14, R16) -/

/-- A move stores the sample in `prev` in phase `S` and keeps `prev` in every other. -/
theorem Move.prev_eq {o : Instr} {s t : State} (h : Move o s t) :
    t.prev = if s.pc.ph = .S then nextSample s else s.prev := by
  cases h <;> simp [*]

/-- A move rotates `idx` in phase `A` and keeps `idx` in every other. -/
theorem Move.idx_eq {o : Instr} {s t : State} (h : Move o s t) :
    t.idx = if s.pc.ph = .A then narrowIdx s.cfg (nextIdx s.cfg s.idx) else s.idx := by
  cases h <;> simp [*]

/-- A move keeps `res`, or writes `NoChange` in phase `S` or `Press` in phase `W`. -/
theorem Move.res_cases {o : Instr} {s t : State} (h : Move o s t) :
    t.res = s.res ∨ (s.pc.ph = .S ∧ t.res = .noChange) ∨ (s.pc.ph = .W ∧ t.res = .press) := by
  cases h <;> simp [*]

/-- Only `POLL` and `LOOP` move in phase `S`. -/
theorem Move.op_of_S {o : Instr} {s t : State} (h : Move o s t) (hp : s.pc.ph = .S) : o = .poll ∨ o = .loop := by
  cases h <;> simp_all

/-- Only `ADVANCE` and `LOOP` move in phase `A`. -/
theorem Move.op_of_A {o : Instr} {s t : State} (h : Move o s t) (hp : s.pc.ph = .A) : o = .advance ∨ o = .loop := by
  cases h <;> simp_all

/-! ## What an edge answers -/

theorem step_of_reset {s : State} (hr : (portsNow s).rst = true) : step s = .next (applyReset (beginEdge s)) := by
  simp [step, clockEdge, hr]

theorem step_of_refusal {s : State} {r : Refusal} (hr : (portsNow s).rst = false) (ha : admission s = some r) :
    step s = .refused r := by
  simp [step, clockEdge, hr, admission_beginEdge, ha]

theorem step_of_waiting {s : State} (hr : (portsNow s).rst = false) (ha : admission s = none)
    (hk : (portsNow s).ack = false) : step s = .next (launched s) := by
  simp [step, clockEdge, hr, admission_beginEdge, ha, hk]

theorem step_of_accepted {s : State} (hr : (portsNow s).rst = false) (ha : admission s = none)
    (hk : (portsNow s).ack = true) : step s = runOp (launched s) := by
  simp only [step, clockEdge, hr, admission_beginEdge, ha, hk, Bool.false_eq_true, if_false, if_true]

/-! ## The shared operations, one field at a time -/

/-- The state with another stored level. -/
def setPrev (b : Bit) (s : State) : State := { s with prev := b }

/-- The state with another index. -/
def setIdx (n : Nat) (s : State) : State := { s with idx := n }

/-- The state with another result flag. -/
def setRes (r : PollResult) (s : State) : State := { s with res := r }

/-- The state with another control state. -/
def setPc (pc : Pc) (s : State) : State := { s with pc := pc }

/-- The state with the period register written. -/
def setPr (v : Nat) (s : State) : State := { s with pr := some v }

/-- The state with another count of pin reads. -/
def setRd (n : Nat) (s : State) : State := { s with rd := n }

/-- The state with the tap high. -/
def raiseTap (s : State) : State := { s with evtPress := true }

/-- The state of a run that has ended. -/
def endRun (s : State) : State := { s with status := .ended }

theorem goto_eq (ph : Phase) (s : State) : goto ph s = setPc ⟨s.pc.k, ph⟩ s := rfl

theorem readPin_eq (s : State) : readPin s = emit (.readpin (nextSample s)) (setRd (s.rd + 1) s) := rfl

theorem setPeriod_eq (v : Nat) (s : State) : setPeriod v s = emit (.setpr v) (setPr v s) := rfl

theorem armTimer_eq (v p : Nat) (s : State) : armTimer v p s = emit (.armtmr v p) (setPr v s) := rfl

theorem complete_of_some {s : State} {o : Instr} (h : opAt s (s.pc.k + 1) = some o) :
    complete s = setPc ⟨s.pc.k + 1, (entryPhase o).getD .B0⟩ s := by
  simp only [complete, h, setPc]

theorem complete_of_none {s : State} (h : opAt s (s.pc.k + 1) = none) : complete s = endRun s := by
  simp only [complete, h, endRun]

theorem phaseS_eq (s : State) : phaseS s =
    if isPressEdge s.cfg s.prev (nextSample s) then goto .D (setPrev (nextSample s) (readPin s))
    else complete (setRes .noChange (setPrev (nextSample s) (readPin s))) := rfl

theorem phaseW_eq (released : State → State) (s : State) : phaseW released s =
    if levelOf s.cfg (nextSample s) = .pressed then goto .W (setRes .press (readPin s))
    else released (raiseTap (setRes .press (readPin s))) := rfl

theorem phaseA_of_some {s : State} {v : Nat} (h : tableRead s.cfg (nextIdx s.cfg s.idx) = some v) :
    phaseA s = .next (complete (setPeriod v (setIdx (narrowIdx s.cfg (nextIdx s.cfg s.idx)) s))) := phaseA_of_entry h

theorem phaseA_of_none {s : State} (h : tableRead s.cfg (nextIdx s.cfg s.idx) = none) :
    phaseA s = .refused .emptyTable := by
  simp [phaseA, h]

/-! ## Changes of state that no operation notices

A change `f` of the state is passive when `f` keeps what the phases read and commutes with what they write, all but `prev`
and `idx`. An operation then runs alike from `s` and from `f s`; in phase `S` this needs the same of `prev`, in phase `A`
of `idx`. -/

/-- The result with its next state, if there is one, changed by `f`. -/
def mapState (f : State → State) : Result → Result
  | .next t => .next (f t)
  | .fault e => .fault e
  | .refused r => .refused r

@[simp] theorem mapState_next (f : State → State) (t : State) : mapState f (.next t) = .next (f t) := rfl
@[simp] theorem mapState_refused (f : State → State) (r : Refusal) : mapState f (.refused r) = .refused r := rfl

theorem mapState_eq_next {f : State → State} {x : Result} {t : State} :
    mapState f x = .next t ↔ ∃ u, x = .next u ∧ f u = t := by
  cases x <;> simp [mapState]

theorem mapState_eq_refused {f : State → State} {x : Result} {r : Refusal} :
    mapState f x = .refused r ↔ x = .refused r := by
  cases x <;> simp [mapState]

/-- `f` keeps the parameters, `rd` and `pc`, and commutes with every write but those of `prev` and `idx`. -/
structure Passive (f : State → State) : Prop where
  cfg : ∀ s, (f s).cfg = s.cfg
  prog : ∀ s, (f s).prog = s.prog
  pin : ∀ s, (f s).pin = s.pin
  rd : ∀ s, (f s).rd = s.rd
  pc : ∀ s, (f s).pc = s.pc
  map_emit : ∀ e s, emit e (f s) = f (emit e s)
  map_setRd : ∀ n s, setRd n (f s) = f (setRd n s)
  map_setRes : ∀ r s, setRes r (f s) = f (setRes r s)
  map_setPc : ∀ pc s, setPc pc (f s) = f (setPc pc s)
  map_setPr : ∀ v s, setPr v (f s) = f (setPr v s)
  map_raiseTap : ∀ s, raiseTap (f s) = f (raiseTap s)
  map_endRun : ∀ s, endRun (f s) = f (endRun s)

/-- `f` keeps `prev` and commutes with its writes. -/
structure PassivePrev (f : State → State) : Prop where
  read : ∀ s, (f s).prev = s.prev
  write : ∀ b s, setPrev b (f s) = f (setPrev b s)

/-- `f` keeps `idx` and commutes with its writes. -/
structure PassiveIdx (f : State → State) : Prop where
  read : ∀ s, (f s).idx = s.idx
  write : ∀ n s, setIdx n (f s) = f (setIdx n s)

namespace Passive

variable {f : State → State}

theorem opAt_eq (hf : Passive f) (s : State) (k : Nat) : opAt (f s) k = opAt s k := by
  unfold opAt; rw [hf.prog]

theorem currentOp_eq (hf : Passive f) (s : State) : currentOp (f s) = currentOp s := by
  unfold currentOp; rw [hf.opAt_eq, hf.pc]

theorem nextSample_eq (hf : Passive f) (s : State) : nextSample (f s) = nextSample s := by
  unfold nextSample; rw [hf.pin, hf.rd]

theorem map_goto (hf : Passive f) (ph : Phase) (s : State) : goto ph (f s) = f (goto ph s) := by
  simp only [goto_eq, hf.pc, hf.map_setPc]

theorem map_complete (hf : Passive f) (s : State) : complete (f s) = f (complete s) := by
  have hnext : opAt (f s) ((f s).pc.k + 1) = opAt s (s.pc.k + 1) := by rw [hf.opAt_eq, hf.pc]
  cases h : opAt s (s.pc.k + 1) with
  | some o => rw [complete_of_some (hnext.trans h), complete_of_some h, hf.pc, hf.map_setPc]
  | none => rw [complete_of_none (hnext.trans h), complete_of_none h, hf.map_endRun]

theorem map_readPin (hf : Passive f) (s : State) : readPin (f s) = f (readPin s) := by
  simp only [readPin_eq, hf.nextSample_eq, hf.rd, hf.map_setRd, hf.map_emit]

theorem map_setPeriod (hf : Passive f) (v : Nat) (s : State) : setPeriod v (f s) = f (setPeriod v s) := by
  simp only [setPeriod_eq, hf.map_setPr, hf.map_emit]

theorem map_armTimer (hf : Passive f) (v p : Nat) (s : State) : armTimer v p (f s) = f (armTimer v p s) := by
  simp only [armTimer_eq, hf.map_setPr, hf.map_emit]

theorem map_phaseS (hf : Passive f) (hp : PassivePrev f) (s : State) : phaseS (f s) = f (phaseS s) := by
  simp only [phaseS_eq, hf.cfg, hp.read, hf.nextSample_eq, hf.map_readPin, hp.write, hf.map_setRes, hf.map_goto,
    hf.map_complete, apply_ite f]

theorem map_phaseD (hf : Passive f) (s : State) : phaseD (f s) = f (phaseD s) := by
  simp only [phaseD, issueDelay, hf.cfg, hf.map_emit, hf.map_goto]

theorem map_phaseW (hf : Passive f) {released : State → State} (hg : ∀ s, released (f s) = f (released s)) (s : State) :
    phaseW released (f s) = f (phaseW released s) := by
  simp only [phaseW_eq, hf.cfg, hf.nextSample_eq, hf.map_readPin, hf.map_setRes, hf.map_goto, hf.map_raiseTap, hg,
    apply_ite f]

theorem map_phaseA (hf : Passive f) (hi : PassiveIdx f) (s : State) : phaseA (f s) = mapState f (phaseA s) := by
  have hentry : tableRead (f s).cfg (nextIdx (f s).cfg (f s).idx) = tableRead s.cfg (nextIdx s.cfg s.idx) := by
    rw [hf.cfg, hi.read]
  cases h : tableRead s.cfg (nextIdx s.cfg s.idx) with
  | none => rw [phaseA_of_none (hentry.trans h), phaseA_of_none h, mapState_refused]
  | some v =>
    rw [phaseA_of_some (hentry.trans h), phaseA_of_some h, mapState_next, hf.cfg, hi.read, hi.write, hf.map_setPeriod,
      hf.map_complete]

theorem map_execPoll (hf : Passive f) {s : State} (hS : s.pc.ph = .S → PassivePrev f) :
    execPoll (f s) = mapState f (execPoll s) := by
  unfold execPoll
  rw [hf.pc]
  cases hp : s.pc.ph
  case S => exact congrArg _ (hf.map_phaseS (hS hp) s)
  case D => exact congrArg _ (hf.map_phaseD s)
  case W => exact congrArg _ (hf.map_phaseW hf.map_complete s)
  all_goals rfl

theorem map_execAdvance (hf : Passive f) {s : State} (hA : s.pc.ph = .A → PassiveIdx f) :
    execAdvance (f s) = mapState f (execAdvance s) := by
  unfold execAdvance
  rw [hf.pc]
  cases hp : s.pc.ph
  case A => exact hf.map_phaseA (hA hp) s
  all_goals rfl

theorem map_execLoop (hf : Passive f) {s : State} (hS : s.pc.ph = .S → PassivePrev f)
    (hA : s.pc.ph = .A → PassiveIdx f) : execLoop (f s) = mapState f (execLoop s) := by
  unfold execLoop
  rw [hf.pc]
  cases hp : s.pc.ph
  case S => exact congrArg _ (hf.map_phaseS (hS hp) s)
  case D => exact congrArg _ (hf.map_phaseD s)
  case W => exact congrArg _ (hf.map_phaseW (hf.map_goto .A) s)
  case A => exact hf.map_phaseA (hA hp) s
  all_goals rfl

theorem map_execBoot (hf : Passive f) (s : State) : execBoot (f s) = mapState f (execBoot s) := by
  simp only [execBoot, hf.pc, hf.cfg, hf.map_emit, hf.map_goto, hf.map_armTimer, hf.map_complete]
  cases s.pc.ph
  case B5 => cases tableRead s.cfg 0 <;> rfl
  all_goals rfl

/-- A sequencer operation does not notice a passive change. -/
theorem map_exec (hf : Passive f) {i : Instr} {s : State} (hl : i.streamLegal = true)
    (hS : s.pc.ph = .S → PassivePrev f) (hA : s.pc.ph = .A → PassiveIdx f) : exec i (f s) = mapState f (exec i s) := by
  rcases streamLegal_iff.1 hl with rfl | rfl | rfl | rfl
  · exact hf.map_execPoll hS
  · exact hf.map_execAdvance hA
  · exact hf.map_execLoop hS hA
  · exact hf.map_execBoot s

theorem map_runOp (hf : Passive f) {s : State} (hS : s.pc.ph = .S → PassivePrev f) (hA : s.pc.ph = .A → PassiveIdx f) :
    runOp (f s) = mapState f (runOp s) := by
  unfold runOp
  rw [hf.currentOp_eq, hf.pc]
  cases currentOp s with
  | none => rfl
  | some o =>
    cases he : elementRefusal s.pc.k o with
    | some r => simp [he]
    | none => simpa [he] using hf.map_exec (elementRefusal_eq_none.1 he) hS hA

/-- An edge without reset does not notice a passive change that leaves the pins and the admission as they are. -/
theorem map_step (hf : Passive f) {s s' : State} (hlaunched : launched s' = f (launched s))
    (hpins : portsNow s' = portsNow s) (hadm : admission s' = admission s) (hr : (portsNow s).rst = false)
    (hS : s.pc.ph = .S → PassivePrev f) (hA : s.pc.ph = .A → PassiveIdx f) : step s' = mapState f (step s) := by
  have hr' : (portsNow s').rst = false := hpins ▸ hr
  cases ha : admission s with
  | some r => rw [step_of_refusal hr ha, step_of_refusal hr' (hadm.trans ha), mapState_refused]
  | none =>
    cases hk : (portsNow s).ack with
    | false =>
      rw [step_of_waiting hr ha hk, step_of_waiting hr' (hadm.trans ha) (hpins ▸ hk), hlaunched, mapState_next]
    | true =>
      rw [step_of_accepted hr ha hk, step_of_accepted hr' (hadm.trans ha) (hpins ▸ hk), hlaunched]
      exact hf.map_runOp hS hA

end Passive

/-! ## `prev` (10_state.md R13) -/

theorem passive_setPrev (b : Bit) : Passive (setPrev b) := by constructor <;> intros <;> rfl

theorem passiveIdx_setPrev (b : Bit) : PassiveIdx (setPrev b) := by constructor <;> intros <;> rfl

/-- Outside phase `S` an edge without reset does not read `prev`. -/
theorem step_setPrev {s : State} (b : Bit) (hp : s.pc.ph ≠ .S) (hr : (portsNow s).rst = false) :
    step (setPrev b s) = mapState (setPrev b) (step s) :=
  (passive_setPrev b).map_step rfl rfl rfl hr (fun h => absurd h hp) fun _ => passiveIdx_setPrev b

/-- Settles O54: what an edge writes to `prev` is read off the moves; outside phase `S` another stored level is a passive
change. -/
theorem prevOnlyInSamplePhase : Obligations.PrevOnlyInSamplePhase := by
  refine ⟨fun s t h hne => ?_, fun s t b hp hr h => ?_, fun s t hp hr ha h => ?_⟩
  · rcases step_cases h with ⟨hr, rfl⟩ | ⟨_, _, _, rfl⟩ | ⟨_, _, _, o, ho, _, hm⟩
    · exact .inl ⟨hr, rfl⟩
    · exact absurd rfl hne
    · have hprev : t.prev = if s.pc.ph = .S then s.pin.sample s.rd else s.prev := hm.prev_eq
      by_cases hp : s.pc.ph = .S
      · exact .inr ⟨hp, by simpa [ho] using hm.op_of_S hp, by rw [hprev, if_pos hp]⟩
      · exact absurd (by rw [hprev, if_neg hp]) hne
  · have hstep := step_setPrev b hp hr
    rw [h] at hstep
    exact hstep
  · rcases step_cases h with ⟨hr', _⟩ | ⟨_, _, ha', _⟩ | ⟨_, _, _, o, _, _, hm⟩
    · simp [hr] at hr'
    · simp [ha] at ha'
    · exact hm.prev_eq.trans (if_pos hp)

/-! ## `idx` and `res` (10_state.md R14, R16, R20) -/

theorem passive_setIdx (n : Nat) : Passive (setIdx n) := by constructor <;> intros <;> rfl

theorem passivePrev_setIdx (n : Nat) : PassivePrev (setIdx n) := by constructor <;> intros <;> rfl

/-- Outside phase `A` an edge of a launched run without reset does not read `idx`; the launch check does. -/
theorem step_setIdx {s : State} (n : Nat) (hp : s.pc.ph ≠ .A) (hs : s.status = .running)
    (hr : (portsNow s).rst = false) : step (setIdx n s) = mapState (setIdx n) (step s) := by
  have hadm : admission (setIdx n s) = admission s := by simp [admission, setIdx, hs]
  exact (passive_setIdx n).map_step rfl rfl hadm hr (fun _ => passivePrev_setIdx n) fun h => absurd h hp

/-- Settles O55: what an edge writes to `idx` and `res` is read off the moves; outside phase `A` another index is a passive
change. -/
theorem indexAndResultAccess : Obligations.IndexAndResultAccess := by
  refine ⟨fun s t h hne => ?_, fun s t n hp hs hr h => ?_, fun s t h hne => ?_⟩
  · rcases step_cases h with ⟨hr, rfl⟩ | ⟨_, _, _, rfl⟩ | ⟨_, _, _, o, ho, _, hm⟩
    · exact .inl ⟨hr, rfl⟩
    · exact absurd rfl hne
    · by_cases hp : s.pc.ph = .A
      · exact .inr ⟨hp, by simpa [ho] using hm.op_of_A hp⟩
      · exact absurd (hm.idx_eq.trans (if_neg hp)) hne
  · have hstep := step_setIdx n hp hs hr
    rw [h] at hstep
    exact hstep
  · rcases step_cases h with ⟨hr, rfl⟩ | ⟨_, _, _, rfl⟩ | ⟨_, _, _, o, _, _, hm⟩
    · exact .inl ⟨hr, rfl⟩
    · exact absurd rfl hne
    · exact .inr (hm.res_cases.resolve_left hne)

/-! ## History, period register and tap (10_state.md R21, R24; 20_memory.md R47) -/

/-- The state with earlier observations: its history preceded by `hist`, and the period `pr` if it has none of its own. -/
def observedBefore (hist : List Event) (pr : Option Nat) (s : State) : State :=
  { s with hist := hist ++ s.hist, pr := s.pr.or pr }

theorem passive_observedBefore (hist : List Event) (pr : Option Nat) : Passive (observedBefore hist pr) where
  map_emit e s := by simp [observedBefore, emit]
  cfg _ := rfl
  prog _ := rfl
  pin _ := rfl
  rd _ := rfl
  pc _ := rfl
  map_setRd _ _ := rfl
  map_setRes _ _ := rfl
  map_setPc _ _ := rfl
  map_setPr _ _ := rfl
  map_raiseTap _ := rfl
  map_endRun _ := rfl

theorem passivePrev_observedBefore (hist : List Event) (pr : Option Nat) : PassivePrev (observedBefore hist pr) := by
  constructor <;> intros <;> rfl

theorem passiveIdx_observedBefore (hist : List Event) (pr : Option Nat) : PassiveIdx (observedBefore hist pr) := by
  constructor <;> intros <;> rfl

/-- An edge without reset goes from `s` as from the state without observations, with those of `s` put
back afterwards. -/
theorem step_eq_unobserved {s : State} (hr : (portsNow s).rst = false) :
    step s = mapState (observedBefore s.hist s.pr) (step (unobserved s)) := by
  have hlaunched : launched s = observedBefore s.hist s.pr (launched (unobserved s)) := by
    simp [observedBefore, unobserved, launched, beginEdge]
  exact (passive_observedBefore _ _).map_step hlaunched rfl rfl hr (fun _ => passivePrev_observedBefore _ _)
    fun _ => passiveIdx_observedBefore _ _

/-- A reset overwrites every observation. -/
theorem applyReset_beginEdge_unobserved (s : State) :
    applyReset (beginEdge (unobserved s)) = applyReset (beginEdge s) := rfl

/-- Settles O56: without reset both states step as their common unobserved state does; a reset overwrites what was
observed. -/
theorem observationsNeverRead : Obligations.ObservationsNeverRead := by
  intro s s' hu
  have hpins : portsNow s = portsNow s' := (congrArg portsNow hu :)
  cases hr : (portsNow s).rst with
  | true =>
    have heq : step s' = step s := by
      rw [step_of_reset hr, step_of_reset (hpins ▸ hr), ← applyReset_beginEdge_unobserved s', ← hu,
        applyReset_beginEdge_unobserved]
    exact ⟨fun r h => heq.trans h, fun t h => ⟨t, heq.trans h, rfl, nofun⟩⟩
  | false =>
    have hs := step_eq_unobserved hr
    have hs' := step_eq_unobserved (s := s') (hpins ▸ hr)
    rw [← hu] at hs'
    refine ⟨fun r h => ?_, fun t h => ?_⟩
    · rw [hs, mapState_eq_refused] at h
      rw [hs', h, mapState_refused]
    · rw [hs, mapState_eq_next] at h
      obtain ⟨u, h, rfl⟩ := h
      exact ⟨observedBefore s'.hist s'.pr u, by rw [hs', h, mapState_next], rfl, fun _ => ⟨u.hist, rfl, rfl⟩⟩

/-! ## Reset and launch (10_state.md R26, R28, R29) -/

/-- Settles O40: each value is the one the definition of the state after reset gives. -/
theorem resetStateValues : Obligations.ResetStateValues := ⟨rfl, rfl, rfl, rfl, rfl, rfl, rfl, rfl⟩

/-- What the launch checks pass (60_exceptions.md R112). -/
theorem launchRefusal_eq_none {s : State} : launchRefusal s = none ↔
    (∀ w ∈ s.prog.words, (decode w).streamLegal = true) ∧ s.cfg.legal = true ∧ s.idx < s.cfg.tableLen ∧ AtBoundary s := by
  rw [← streamRefusal_eq_none (k := 0), ← configRefusal_eq_none, ← boundaryRefusal_eq_none]
  unfold launchRefusal
  cases streamRefusal 0 s.prog.words with
  | some r => simp
  | none => cases configRefusal s.cfg <;> simp

/-- A launch state that passes the checks, of a stream with an operation at position 0, is safe. -/
theorem runSafe_of_launch {s : State} (hs : s.status = .launch) (hpass : launchRefusal s = none)
    (hstart : (opAt s 0).isSome = true) : RunSafe s := by
  obtain ⟨hstream, hconfig, hindex, hboundary⟩ := launchRefusal_eq_none.1 hpass
  exact ⟨⟨hconfig, hstream, hstart⟩, hindex, fun _ => hboundary, fun h => by simp [hs] at h⟩

/-- Settles O48: the state after reset is itself a launch state that passes the checks. -/
theorem runSafeAtLaunch : Obligations.RunSafeAtLaunch :=
  ⟨runSafe_of_launch rfl (by decide) rfl, fun _ => runSafe_of_launch⟩

end Sys2Proof.Machine
end

section
/-! PROOFS of the family 20_memory.md: what an edge leaves unchanged, the output taps, the request on the ports, the event it
becomes, the wait states before it does, and reads of a table entry that does not exist. -/

namespace Sys2Proof.Machine

/-! ## The parameters and the press tap (20_memory.md R31, R43, R44) -/

/-- A move writes no parameter. -/
theorem Move.params_eq {o : Instr} {s t : State} (h : Move o s t) : t.cfg = s.cfg ∧ t.prog = s.prog ∧ t.pin = s.pin := by
  cases h <;> simp

/-- Settles O53: reset, waiting and every move keep the parameters. -/
theorem parametersNeverWritten : Obligations.ParametersNeverWritten := by
  intro s t h
  rcases step_cases h with ⟨_, rfl⟩ | ⟨_, _, _, rfl⟩ | ⟨_, _, _, o, _, _, hm⟩
  · exact ⟨rfl, rfl, rfl⟩
  · exact ⟨rfl, rfl, rfl⟩
  · exact hm.params_eq

/-- From a low tap exactly the moves that see the release raise it. -/
theorem Move.evtPress_iff {o : Instr} {s t : State} (h : Move o s t) (hlow : s.evtPress = false) :
    t.evtPress = true ↔ s.pc.ph = .W ∧ (o = .poll ∨ o = .loop) ∧ levelOf s.cfg (nextSample s) = .released := by
  cases h <;> simp [*]

/-- Settles O57: every edge begins with the tap low, and only a move can raise it. -/
theorem evtPressMarksRelease : Obligations.EvtPressMarksRelease := by
  intro s t h
  rcases step_cases h with ⟨hr, rfl⟩ | ⟨_, _, hk, rfl⟩ | ⟨hr, _, hk, o, ho, _, hm⟩
  · simp [hr]
  · simp [hk]
  · simpa [hr, hk, ho, nextSample] using hm.evtPress_iff rfl

/-! ## A table entry that does not exist (20_memory.md R31) -/

theorem tableRead_of_empty {c : Config} (h : c.table = []) (i : Nat) : tableRead c i = none := by
  simp [tableRead, h]

theorem execBoot_of_empty {s : State} (h : s.cfg.table = []) (hp : s.pc.ph = .B5) :
    execBoot s = .refused .emptyTable := by
  simp [execBoot, hp, tableRead_of_empty h]

/-- Settles O12: each of the four reads answers its own refusal when the table has no entry for it. -/
theorem missingEntryIsRefused : Obligations.MissingEntryIsRefused := by
  refine ⟨fun s h => ?_, fun s h => ?_, fun s h hp => execBoot_of_empty h hp, fun i s hi h hp => ?_⟩
  · have hread : tableRead s.cfg s.idx = none := h
    simp [exec, execSetpr, hread]
  · simp [exec, execArmtmr, tableRead_of_empty h]
  · have hA := phaseA_of_none (tableRead_of_empty h (nextIdx s.cfg s.idx))
    rcases hi with rfl | rfl
    · simpa [exec, execAdvance, hp] using hA
    · simpa [exec, execLoop, hp] using hA

/-! ## Where a request can be raised (20_memory.md R45, 30_encoding.md R52) -/

/-- What issues something is a sequencer operation, and what it issues is a primitive. -/
theorem streamLegal_and_isPrimitive_of_issued {o p : Instr} {ph : Phase} (h : issuedPrimitive o ph = some p) :
    o.streamLegal = true ∧ p.isPrimitive = true := by
  unfold issuedPrimitive at h
  split at h <;> cases h <;> exact ⟨rfl, rfl⟩

/-- The arguments of a primitive are missing exactly where it reads an empty table. -/
theorem issueArgs_isSome_iff {s : State} {p : Instr} (hp : p.isPrimitive = true) :
    (issueArgs s p).isSome = true ↔ (s.cfg.table = [] → p ≠ .armtmr ∧ p ≠ .setpr) := by
  by_cases htable : s.cfg.table = []
  · cases p <;> simp_all [issueArgs, tableRead_of_empty, Instr.isPrimitive]
  · have hfirst : (tableRead s.cfg 0).isSome = true := tableRead_isSome.2 (List.length_pos_iff.2 htable)
    have hnext : (tableRead s.cfg (nextIdx s.cfg s.idx)).isSome = true := tableRead_isSome.2 (nextIdx_lt htable _)
    cases p <;> simp_all [issueArgs, Instr.isPrimitive]

/-- `prim_req` is high exactly where a primitive can be issued. -/
theorem request_isSome_iff {s : State} : (request s).isSome = true ↔
    (portsNow s).rst = false ∧ admission s = none ∧ ∃ o p, currentOp s = some o ∧
      issuedPrimitive o s.pc.ph = some p ∧ (s.cfg.table = [] → p ≠ .armtmr ∧ p ≠ .setpr) := by
  rw [Option.isSome_iff_exists]
  constructor
  · rintro ⟨q, hq⟩
    obtain ⟨hr, hadm, o, p, ab, ho, hp, hab, -⟩ := request_eq_some.1 hq
    have hprim := (streamLegal_and_isPrimitive_of_issued hp).2
    exact ⟨hr, hadm, o, p, ho, hp, (issueArgs_isSome_iff hprim).1 (by rw [hab]; rfl)⟩
  · rintro ⟨hr, hadm, o, p, ho, hp, htable⟩
    have hprim := (streamLegal_and_isPrimitive_of_issued hp).2
    obtain ⟨ab, hab⟩ := Option.isSome_iff_exists.1 ((issueArgs_isSome_iff hprim).2 htable)
    exact ⟨_, request_eq_some.2 ⟨hr, hadm, o, p, ab, ho, hp, hab, rfl⟩⟩

theorem admission_of_running {s : State} (h : s.status = .running) : admission s = none := by
  simp [admission, h]

/-- Settles O36: a running block is admitted, and a table with an entry lacks no argument. -/
theorem outputPortsShowState : Obligations.OutputPortsShowState := by
  refine fun s => ⟨rfl, rfl, rfl, rfl, Iff.rfl, request_isSome_iff, fun hrun hr hpair htable => ?_⟩
  obtain ⟨o, p, ho, hp⟩ := hpair
  exact request_isSome_iff.2 ⟨hr, admission_of_running hrun, o, p, ho, hp, fun h => absurd h htable⟩

/-! ## Wait states (20_memory.md R45, R46; 70_reset_and_hazards.md R125) -/

theorem request_of_reset {s : State} (hr : (portsNow s).rst = true) : request s = none := by
  simp [request, hr]

/-- A request stands unchanged after a waiting edge, unless reset is high. -/
theorem request_launched {s : State} {q : Request} (hq : request s = some q)
    (hr : (portsNow (launched s)).rst = false) : request (launched s) = some q := by
  obtain ⟨-, -, hissue⟩ := request_eq_some.1 hq
  exact request_eq_some.2 ⟨hr, admission_of_running rfl, hissue⟩

/-- Settles O37: the waiting edge only launches the run. -/
theorem requestHeldUntilAck : Obligations.RequestHeldUntilAck := by
  intro s q hk hq
  obtain ⟨hr, hadm, -⟩ := request_eq_some.1 hq
  exact ⟨launched s, step_of_waiting hr hadm hk, rfl, rfl, rfl, request_launched hq, request_of_reset⟩

/-- The state after wait states, with the pins left: the run launched and the tap low. -/
def waited (rest : List PortIn) (s : State) : State := { s with inputs := rest, evtPress := false, status := .running }

theorem step_wait {s : State} (h : admission s = none) (rest : List PortIn) :
    step { s with inputs := ⟨false, false⟩ :: rest } = .next (waited rest s) := step_of_waiting rfl h rfl

/-- One wait state or more leave the same state. -/
theorem runFor_waits {s : State} (h : admission s = none) (m : Nat) (rest : List PortIn) :
    runFor (m + 1) { s with inputs := List.replicate (m + 1) ⟨false, false⟩ ++ rest } = .next (waited rest s) := by
  induction m generalizing s with
  | zero => exact runFor_succ (step_wait h rest)
  | succ m ih =>
    have hfirst := step_wait h (List.replicate (m + 1) ⟨false, false⟩ ++ rest)
    exact (runFor_succ hfirst).trans (ih (s := waited [] s) rfl)

/-- An edge after wait states is the edge without them. -/
theorem step_waited {s : State} (h : admission s = none) (rest : List PortIn) :
    step (waited rest s) = step { s with inputs := rest } := by
  have hadm : admission { s with inputs := rest } = none := h
  have hwaited : admission (waited rest s) = none := admission_of_running rfl
  simp only [step, clockEdge, admission_beginEdge, hadm, hwaited]
  rfl

/-- Settles O38: by induction on the number of wait states, of which the first launches the run and lowers the tap. -/
theorem waitStatesChangeNothing : Obligations.WaitStatesChangeNothing := by
  intro s m rest h
  cases m with
  | zero => exact ⟨_, rfl, rfl, rfl⟩
  | succ m => exact ⟨waited rest s, runFor_waits h m rest, rfl, step_waited h rest⟩

/-! ## The event a request becomes (20_memory.md R44, R45; 30_encoding.md R49, R52) -/

/-- With an entry 0 in the table the last phase of `BOOT` is taken. -/
theorem execBoot_of_entry {s : State} {v : Nat} (hp : s.pc.ph = .B5) (h : tableRead s.cfg 0 = some v) :
    execBoot s = .next (complete (armTimer v s.cfg.prescaler s)) := by
  simp [execBoot, hp, h]

/-- An operation takes its phase where the primitive it issues there has its arguments: only `ARMTMR` and `SETPR` read the
table for them. -/
theorem exec_of_issueArgs {o p : Instr} {s : State} {ab : Nat × Nat} (hp : issuedPrimitive o s.pc.ph = some p)
    (hab : issueArgs s p = some ab) : ∃ t, exec o s = .next t := by
  have harm (hph : s.pc.ph = .B5) (h : issueArgs s .armtmr = some ab) : ∃ t, execBoot s = .next t := by
    obtain ⟨v, hv, -⟩ := Option.map_eq_some_iff.1 h
    exact ⟨_, execBoot_of_entry hph hv⟩
  have hset (h : issueArgs s .setpr = some ab) : ∃ t, phaseA s = .next t := by
    obtain ⟨v, hv, -⟩ := Option.map_eq_some_iff.1 h
    exact ⟨_, phaseA_of_entry hv⟩
  cases hph : s.pc.ph <;> rw [hph] at hp <;> cases o <;> cases hp
  case B5.boot.refl => exact harm hph hab
  case A.loop.refl => simpa [exec, execLoop, hph] using hset hab
  case A.advance.refl => simpa [exec, execAdvance, hph] using hset hab
  all_goals simp [exec, execBoot, execPoll, execLoop, hph]

/-- The event a move records carries, in its form on the interface, the arguments presented with its primitive, and for a
`READPIN` alone the sample. -/
theorem Move.bus_of_recorded {o : Instr} {s t : State} {e : Event} (h : Move o s t) (he : t.hist = s.hist ++ [e]) :
    issueArgs s e.instr = some ((e.bus s.cfg).a, (e.bus s.cfg).b) ∧
    (e.bus s.cfg).r = if e.instr = .readpin then some (nextSample s) else none := by
  cases h
  all_goals
    simp only [complete_hist, List.append_cancel_left_eq, List.cons.injEq, and_true] at he
    subst he
    simp [issueArgs, Event.instr, Event.bus, cfgdirArgs, *]

theorem Event.bus_op (c : Config) (e : Event) : (e.bus c).op = encode e.instr := by cases e <;> rfl

/-- Among the primitives the selector of `READPIN` is its own. -/
theorem sel_eq_readpin_iff {p : Instr} (hp : p.isPrimitive = true) :
    OpWord.sel (encode p) = OpWord.sel (encode .readpin) ↔ p = .readpin := by
  revert hp
  cases p <;> decide

/-- What `prim_rdata` carries with a request that is acknowledged. -/
theorem primRdata_of_request {s : State} {q : Request} (hq : request s = some q) (hk : (portsNow s).ack = true) :
    primRdata s = if q.sel = OpWord.sel (encode .readpin) then some (nextSample s) else none := by
  simp [primRdata, hq, hk]

/-- Settles O35: the move the accepting edge makes records the primitive that was requested, with the arguments that were
presented. -/
theorem requestIsRecordedEvent : Obligations.RequestIsRecordedEvent := by
  intro s q hk hq
  obtain ⟨hr, hadm, o, p, ab, ho, hp, hab, rfl⟩ := request_eq_some.1 hq
  obtain ⟨hl, hprimitive⟩ := streamLegal_and_isPrimitive_of_issued hp
  obtain ⟨t, ht⟩ := exec_of_issueArgs (s := launched s) hp hab
  have hm := move_of_exec hl ht
  obtain ⟨e, hhist, hprim, -⟩ := hm.issues_one
  obtain rfl : p = e.instr := Option.some.inj (hp.symm.trans hprim)
  obtain ⟨hargs, hret⟩ := hm.bus_of_recorded hhist
  obtain rfl : ab = ((e.bus s.cfg).a, (e.bus s.cfg).b) := Option.some.inj (hab.symm.trans hargs)
  have hrdata : primRdata s = (e.bus s.cfg).r := by
    rw [primRdata_of_request hq hk]
    exact (if_congr (sel_eq_readpin_iff hprimitive) rfl rfl).trans hret.symm
  exact ⟨t, e, (step_of_admitted hr hk hadm ho hl).trans ht, hhist, by rw [Event.bus_op]; rfl, Nat.mod_eq_of_lt,
    Nat.mod_eq_of_lt, rfl, rfl, hrdata⟩

end Sys2Proof.Machine
end

section
/-! PROOFS of the family 30_encoding.md: the operation words, the codes of phase and result, written streams, packed
events, the refusal of a stream, and the placing of a word for the next step. -/

namespace Sys2Proof.Machine

/-! ## The operation words (30_encoding.md R48, R50, R55, R57) -/

@[simp] theorem decode_encode (i : Instr) : decode (encode i) = i := by cases i <;> rfl

@[simp] theorem encode_decode (w : OpWord) : encode (decode w) = w := by
  revert w; decide

/-- The laws of the sixteen rows as one. -/
theorem codeClass (i : Instr) : Laws.CodeClass.Statement i := by
  cases i
  exacts [Laws.CodeClass.cfgdir, Laws.CodeClass.cfgpu, Laws.CodeClass.selclk, Laws.CodeClass.cfgpwm,
    Laws.CodeClass.armtmr, Laws.CodeClass.setpr, Laws.CodeClass.readpin, Laws.CodeClass.delay, Laws.CodeClass.poll,
    Laws.CodeClass.advance, Laws.CodeClass.loop, Laws.CodeClass.boot, Laws.CodeClass.reservedC,
    Laws.CodeClass.reservedD, Laws.CodeClass.reservedE, Laws.CodeClass.reservedF]

theorem cls_encode (i : Instr) : OpWord.cls (encode i) = !i.isPrimitive := (codeClass i).1

/-- Settles O1: each word is the one the encoder gives its instruction. -/
theorem writtenWordsDecode : Obligations.WrittenWordsDecode :=
  ⟨decode_encode .cfgdir, decode_encode .cfgpu, decode_encode .selclk, decode_encode .cfgpwm, decode_encode .armtmr,
    decode_encode .setpr, decode_encode .readpin, decode_encode .delay, decode_encode .poll, decode_encode .advance,
    decode_encode .loop, decode_encode .boot, decode_encode .reservedC, decode_encode .reservedD,
    decode_encode .reservedE, decode_encode .reservedF⟩

/-- Settles O2: the class bit is a law of each row. -/
theorem decodeInvertsEncode : Obligations.DecodeInvertsEncode := ⟨decode_encode, encode_decode, cls_encode⟩

/-- Operations issue primitives only. -/
theorem issuedPrimitive_ne_of_not_isPrimitive {i : Instr} (hi : i.isPrimitive = false) (o : Instr) (ph : Phase) :
    issuedPrimitive o ph ≠ some i := by
  intro h
  simp [(streamLegal_and_isPrimitive_of_issued h).2] at hi

/-- Settles O15: each reserved code has the one meaning `refuseReserved`, and what is issued is a primitive. -/
theorem reservedCodesRefused : Obligations.ReservedCodesRefused := by
  rintro i (rfl | rfl | rfl | rfl)
  all_goals exact ⟨fun _ => rfl, fun _ => rfl, issuedPrimitive_ne_of_not_isPrimitive rfl⟩

/-! ## The codes of phase and result (30_encoding.md R53, R54) -/

theorem PollResult.ofCode_code (r : PollResult) : PollResult.ofCode r.code = r := by cases r <;> rfl

theorem Phase.ofCode_code (p : Phase) : Phase.ofCode p.code = p := by cases p <;> rfl

/-- A code read as another phase than `B0` is the code of that phase. -/
theorem Phase.code_ofCode_of_ne {w : BitVec 4} (h : Phase.ofCode w ≠ .B0) : (Phase.ofCode w).code = w := by
  revert w; decide

/-- Settles O5: only a used code is read as another phase than `B0`. -/
theorem phaseAndResultCodes : Obligations.PhaseAndResultCodes := by
  refine ⟨PollResult.ofCode_code, rfl, rfl, rfl, rfl, rfl, rfl, rfl, rfl, rfl, rfl, rfl, rfl, Phase.ofCode_code,
    fun w hunused => ?_⟩
  by_contra hne
  exact hunused _ (Phase.code_ofCode_of_ne hne)

/-! ## Written streams (30_encoding.md R59, R60) -/

theorem ofHexDigit_hexDigit (w : OpWord) : ofHexDigit (hexDigit w) = some w := by
  revert w; decide

/-- Settles O3, by induction on the list: each digit reads back as its word. -/
theorem hexStreamReadsBack : Obligations.HexStreamReadsBack := by
  intro ws
  induction ws with
  | nil => rfl
  | cons w ws ih =>
    unfold ofHex hexOf at ih ⊢
    simp [ofHexDigit_hexDigit, ih]

/-- What stands at a position depends on the words from there and on whether `LOOP` follows them. -/
theorem word_congr {p q : Prog} {j k : Nat} (hloops : p.thenLoops = q.thenLoops) (hword : p.words[j]? = q.words[k]?) :
    p.word? j = q.word? k := by
  unfold Prog.word?
  rw [hloops, hword]

/-- The stream `p` behind the words `ws`. -/
def after (ws : List OpWord) (p : Prog) : Prog := { p with words := ws ++ p.words }

theorem word_after_of_lt {ws : List OpWord} {k : Nat} (h : k < ws.length) (p : Prog) :
    (after ws p).word? k = some ws[k] := by
  simp [after, Prog.word?, List.getElem?_append_left h, h]

theorem word_after_length_add (ws : List OpWord) (p : Prog) (k : Nat) :
    (after ws p).word? (ws.length + k) = p.word? k :=
  word_congr rfl (by simp [after, List.getElem?_append_right])

theorem expand_times (i : Instr) (n : Nat) (rest : List Item) :
    expand (.times i n :: rest) = after (List.replicate n (encode i)) (expand rest) := rfl

/-- Settles O6: `AUTO` is read off its definition, and `OP * n` is `n` words before the rest. -/
theorem pseudoOperationsExpand : Obligations.PseudoOperationsExpand := by
  refine ⟨rfl, fun _ => rfl, fun _ => rfl, fun i n rest k hk => ?_, fun i n rest k => ?_⟩
  · rw [expand_times, word_after_of_lt (by simpa using hk)]
    simp
  · rw [expand_times]
    simpa using word_after_length_add (List.replicate n (encode i)) (expand rest) k

/-! ## Packed events (30_encoding.md R49, R51, R52) -/

/-- The three fields are the digits of the packed number in base `2 ^ argW`. -/
theorem BusEvent.unpack_pack {argW : Nat} {e : BusEvent} (ha : e.a < 2 ^ argW) (hb : e.b < 2 ^ argW) :
    BusEvent.unpack argW (BusEvent.pack argW e) e.r = e := by
  have hpos : 0 < 2 ^ argW := Nat.two_pow_pos argW
  have hlow (x y : Nat) (hy : y < 2 ^ argW) : (x * 2 ^ argW + y) % 2 ^ argW = y := by
    rw [Nat.mul_add_mod', Nat.mod_eq_of_lt hy]
  have hhigh (x y : Nat) (hy : y < 2 ^ argW) : (x * 2 ^ argW + y) / 2 ^ argW = x := by
    rw [Nat.add_comm, Nat.add_mul_div_right _ _ hpos, Nat.div_eq_of_lt hy, Nat.zero_add]
  simp [BusEvent.unpack, BusEvent.pack, Nat.mod_eq_of_lt ha, Nat.mod_eq_of_lt hb, hlow, hhigh, ha, hb]

theorem boolArg_beq_one (b : Bool) : (boolArg b == 1) = b := by cases b <;> rfl

/-- The form on the interface, with the returned bit, loses nothing of an event. -/
theorem Event.ofBus_bus (c : Config) (e : Event) : Event.ofBus (e.bus c) = some e := by
  cases e <;> simp [Event.ofBus, Event.bus, boolArg_beq_one]

/-- Settles O4: arguments that fit are packed without loss. -/
theorem packedEventReadsBack : Obligations.PackedEventReadsBack := by
  intro c e ha hb
  rw [BusEvent.unpack_pack ha hb, Event.ofBus_bus]

/-! ## The refusal of a stream (30_encoding.md R55, R56) -/

/-- An element is refused for its class. -/
theorem elementRefusal_eq_some {k : Nat} {i : Instr} {r : Refusal} : elementRefusal k i = some r ↔
    i.streamLegal = false ∧ ((i.isReserved = true ∧ r = .reservedOp k) ∨
      (i.isPrimitive = true ∧ r = .primitiveInStream k)) := by
  cases i <;> simp [elementRefusal, Instr.streamLegal, Instr.isReserved, Instr.isPrimitive, eq_comm (a := r)]

theorem isPrimitive_decode (w : OpWord) : (decode w).isPrimitive = true ↔ OpWord.cls w = false := by
  have h := cls_encode (decode w)
  rw [encode_decode] at h
  simp [h]

/-- The reserved codes are the upper half of class 1. -/
theorem isReserved_decode (w : OpWord) :
    (decode w).isReserved = true ↔ 3 < (OpWord.sel w).toNat ∧ OpWord.cls w = true := by
  revert w; decide

/-- The refusal of a stream is that of its first element which is refused by itself. -/
theorem streamRefusal_eq_some {k : Nat} {ws : List OpWord} {r : Refusal} : streamRefusal k ws = some r ↔
    ∃ j w, ws[j]? = some w ∧ (∀ i u, i < j → ws[i]? = some u → (decode u).streamLegal = true) ∧
      elementRefusal (k + j) (decode w) = some r := by
  induction ws generalizing k with
  | nil => simp [streamRefusal]
  | cons w ws ih =>
    constructor
    · intro h
      cases hw : elementRefusal k (decode w) with
      | some r' =>
        obtain rfl : r' = r := by simpa [streamRefusal, hw] using h
        exact ⟨0, w, rfl, fun _ _ hi => absurd hi (Nat.not_lt_zero _), hw⟩
      | none =>
        obtain ⟨j, x, hx, hbefore, hr⟩ := ih.1 (by simpa [streamRefusal, hw] using h)
        refine ⟨j + 1, x, hx, fun i u hi hu => ?_, by rwa [Nat.add_right_comm] at hr⟩
        cases i with
        | zero =>
          obtain rfl : w = u := by simpa using hu
          exact elementRefusal_eq_none.1 hw
        | succ i => exact hbefore i u (Nat.lt_of_succ_lt_succ hi) hu
    · rintro ⟨_ | j, x, hx, hbefore, hr⟩
      · obtain rfl : w = x := by simpa using hx
        simp only [streamRefusal, show elementRefusal k (decode w) = some r from hr]
      · have hw : elementRefusal k (decode w) = none := elementRefusal_eq_none.2 (hbefore 0 w j.succ_pos rfl)
        have hrest : streamRefusal (k + 1) ws = some r :=
          ih.2 ⟨j, x, hx, fun i u hi hu => hbefore (i + 1) u (Nat.succ_lt_succ hi) hu, by rwa [Nat.add_right_comm]⟩
        simpa only [streamRefusal, hw] using hrest

/-- Settles O44: the first ill-formed element is refused for its class, which its word shows. -/
theorem streamRefusalNamesFirst : Obligations.StreamRefusalNamesFirst := by
  refine fun ws r => streamRefusal_eq_some.trans
    (exists_congr fun k => exists_congr fun w => and_congr_right fun _ => ?_)
  rw [elementRefusal_eq_some, isReserved_decode, isPrimitive_decode, Nat.zero_add, and_assoc, and_left_comm]

/-! ## The placed word (30_encoding.md R52, R56; log 10) -/

theorem decodeTableWord_toNat (nbits : Nat) (w : OpWord) : decodeTableWord nbits w.toNat = some (decode w) := by
  simp [decodeTableWord, decodeNat, w.isLt]

/-- The state in which an instruction is run by itself: in the phase that issues it, for `SETPR` at the new index. -/
def alone (i : Instr) (s : State) : State :=
  { s with pc := ⟨s.pc.k, carrierPhase i⟩, idx := if i = .setpr then nextIdx s.cfg s.idx else s.idx }

/-- `t` and `u` agree in the history, the period register and the read count, and after a sequencer operation in `idx`,
`prev` and `res`. -/
structure SameEffect (i : Instr) (t u : State) : Prop where
  hist : t.hist = u.hist
  pr : t.pr = u.pr
  rd : t.rd = u.rd
  operation : i.streamLegal = true → t.idx = u.idx ∧ t.prev = u.prev ∧ t.res = u.res

/-- The step of a placed word is the meaning of the operation that carries it. -/
theorem step_withFetchWord {i : Instr} (hi : i.isReserved = false) (s : State) :
    step (s.withFetchWord 8 (encode i).toNat) = exec (carrier i) (launched (placeInstr i s)) := by
  have hplaced : s.withFetchWord 8 (encode i).toNat = placeInstr i s := by
    simp [State.withFetchWord]
  have hop : currentOp (placeInstr i s) = some (carrier i) := by
    simp [currentOp, opAt, placeInstr, word_place]
  have hlegal : (carrier i).streamLegal = true := by
    rw [(codeClass i).2.1, hi]; rfl
  rw [hplaced, step_of_admitted rfl rfl rfl hop hlegal]

@[simp] theorem phaseS_pr (s : State) : (phaseS s).pr = s.pr := by
  rw [phaseS_eq]; split <;> simp [setPrev, setRes]

@[simp] theorem phaseS_rd (s : State) : (phaseS s).rd = s.rd + 1 := by
  rw [phaseS_eq]; split <;> simp [setPrev, setRes]

@[simp] theorem phaseS_idx (s : State) : (phaseS s).idx = s.idx := by
  rw [phaseS_eq]; split <;> simp [setPrev, setRes]

@[simp] theorem phaseS_prev (s : State) : (phaseS s).prev = nextSample s := by
  rw [phaseS_eq]; split <;> simp [setPrev, setRes]

@[simp] theorem phaseS_res (s : State) :
    (phaseS s).res = bif isPressEdge s.cfg s.prev (nextSample s) then s.res else .noChange := by
  rw [phaseS_eq]; split <;> simp [setPrev, setRes, *]

theorem execSetpr_of_entry {s : State} {v : Nat} (h : tableRead s.cfg s.idx = some v) :
    execSetpr s = .next (setPeriod v s) := by
  simp [execSetpr, h]

theorem execArmtmr_of_entry {s : State} {v : Nat} (h : tableRead s.cfg 0 = some v) :
    execArmtmr s = .next (armTimer v s.cfg.prescaler s) := by
  simp [execArmtmr, h]

/-- The sample phase of a placed operation has the effect of the operation's own. -/
theorem sameEffect_phaseS {i : Instr} (hi : i ≠ .setpr) (s : State) :
    SameEffect i (phaseS (launched (placeInstr i s))) (phaseS (alone i s)) := by
  constructor <;> simp [placeInstr, alone, nextSample, hi]

/-- The operation that carries an instruction has, in the phase it is placed in, the instruction's own effect. -/
theorem exec_carrier {i : Instr} {s : State} (hi : i.isReserved = false) (hidx : s.idx < s.cfg.tableLen) :
    ∃ t u, exec (carrier i) (launched (placeInstr i s)) = .next t ∧ exec i (alone i s) = .next u ∧
      SameEffect i t u := by
  have htable : s.cfg.table ≠ [] := List.length_pos_iff.1 (Nat.zero_lt_of_lt hidx)
  obtain ⟨v, hv⟩ := Option.isSome_iff_exists.1 (tableRead_isSome.2 (Nat.zero_lt_of_lt hidx))
  obtain ⟨w, hw⟩ := Option.isSome_iff_exists.1 (tableRead_isSome.2 (nextIdx_lt htable s.idx))
  cases i
  case cfgdir => exact ⟨_, _, rfl, rfl, rfl, rfl, rfl, nofun⟩
  case cfgpu => exact ⟨_, _, rfl, rfl, rfl, rfl, rfl, nofun⟩
  case selclk => exact ⟨_, _, rfl, rfl, rfl, rfl, rfl, nofun⟩
  case cfgpwm => exact ⟨_, _, rfl, rfl, rfl, rfl, rfl, nofun⟩
  case armtmr =>
    have hboot := execBoot_of_entry (s := launched (placeInstr .armtmr s)) rfl hv
    exact ⟨_, _, hboot, execArmtmr_of_entry hv, complete_hist _, complete_pr _, complete_rd _, nofun⟩
  case setpr =>
    exact ⟨_, _, phaseA_of_entry hw, execSetpr_of_entry hw, complete_hist _, complete_pr _, complete_rd _, nofun⟩
  case readpin => exact ⟨_, _, rfl, rfl, phaseS_hist _, phaseS_pr _, phaseS_rd _, nofun⟩
  case delay => exact ⟨_, _, rfl, rfl, rfl, rfl, rfl, nofun⟩
  case poll => exact ⟨_, _, rfl, rfl, sameEffect_phaseS (i := .poll) nofun s⟩
  case loop => exact ⟨_, _, rfl, rfl, sameEffect_phaseS (i := .loop) nofun s⟩
  case advance =>
    refine ⟨_, _, phaseA_of_entry hw, phaseA_of_entry hw, ?_⟩
    constructor <;> simp [placeInstr, alone]
  case boot => exact ⟨_, _, rfl, rfl, rfl, rfl, rfl, fun _ => ⟨rfl, rfl, rfl⟩⟩
  all_goals cases hi

/-- Settles O33: the step runs the carrier of the placed word, which has the instruction's own effect. -/
theorem placedWordRunsNext : Obligations.PlacedWordRunsNext := by
  intro i s hi hidx
  have hdecode : decodeTableWord 8 (encode i).toNat = some i := by rw [decodeTableWord_toNat, decode_encode]
  obtain ⟨t, u, ht, hu, hhist, hpr, hrd, hop⟩ := exec_carrier hi hidx
  exact ⟨hdecode, t, u, (step_withFetchWord hi s).trans ht, hu, hhist, hpr, hrd, hop⟩

end Sys2Proof.Machine
end

section
/-! PROOFS of the family 40_debouncer.md: the two primitives of the debouncer, the phases `S`, `D` and `W` of `POLL` and
`LOOP`, the stored level while waiting, and `POLL` as one big step. -/

namespace Sys2Proof.Machine

/-! ## READPIN and DELAY (40_debouncer.md R67, R68) -/

theorem issuedPrimitive_eq_readpin_iff {o : Instr} {ph : Phase} :
    issuedPrimitive o ph = some .readpin ↔ (o = .poll ∨ o = .loop) ∧ (ph = .S ∨ ph = .W) := by
  constructor
  · intro h
    unfold issuedPrimitive at h
    split at h <;> cases h <;> simp
  · rintro ⟨rfl | rfl, rfl | rfl⟩ <;> rfl

theorem issuedPrimitive_eq_delay_iff {o : Instr} {ph : Phase} :
    issuedPrimitive o ph = some .delay ↔ (o = .poll ∨ o = .loop) ∧ ph = .D := by
  constructor
  · intro h
    unfold issuedPrimitive at h
    split at h <;> cases h <;> simp
  · rintro ⟨rfl | rfl, rfl⟩ <;> rfl

/-- Settles O13: the second of two reads finds the count the first one left. -/
theorem readpinConsumesOneSample : Obligations.ReadpinConsumesOneSample := by
  refine ⟨rfl, fun _ _ => issuedPrimitive_eq_readpin_iff, fun _ => rfl, fun _ _ => rfl, fun _ => rfl, ?_⟩
  rintro s _ _ rfl rfl
  exact ⟨readPin s, rfl, rfl⟩

/-- Settles O14: `DELAY` emits its event and does nothing else. -/
theorem delayRecordsInterval : Obligations.DelayRecordsInterval :=
  ⟨rfl, fun _ _ => issuedPrimitive_eq_delay_iff, fun _ => rfl, fun _ _ => rfl, fun _ => rfl⟩

/-! ## The phases of POLL and LOOP (40_debouncer.md R63 to R65) -/

section
variable {i : Instr} {s : State} (hi : i = .poll ∨ i = .loop)
include hi

theorem streamLegal_of_poll_or_loop : i.streamLegal = true := by rcases hi with rfl | rfl <;> rfl

theorem exec_of_S (hp : s.pc.ph = .S) : exec i s = .next (phaseS s) := by
  rcases hi with rfl | rfl
  · simp [exec, execPoll, hp]
  · simp [exec, execLoop, hp]

theorem exec_of_S_edge (hp : s.pc.ph = .S) (hold : levelOf s.cfg s.prev = .released)
    (hcur : levelOf s.cfg (nextSample s) = .pressed) :
    exec i s = .next { s with prev := nextSample s, rd := s.rd + 1, hist := s.hist ++ [.readpin (nextSample s)],
                              pc := ⟨s.pc.k, .D⟩ } := by
  rw [exec_of_S hi hp, phaseS_of_edge hold hcur]

theorem exec_of_S_noEdge (hp : s.pc.ph = .S)
    (h : ¬ (levelOf s.cfg s.prev = .released ∧ levelOf s.cfg (nextSample s) = .pressed)) :
    exec i s = .next (complete { s with prev := nextSample s, rd := s.rd + 1,
                                        hist := s.hist ++ [.readpin (nextSample s)], res := .noChange }) := by
  rw [exec_of_S hi hp, phaseS_of_noEdge h]

theorem exec_of_D (hp : s.pc.ph = .D) :
    exec i s = .next { s with hist := s.hist ++ [.delay s.cfg.debounceMs], pc := ⟨s.pc.k, .W⟩ } := by
  have hD : exec i s = .next (phaseD s) := by
    rcases hi with rfl | rfl
    · simp [exec, execPoll, hp]
    · simp [exec, execLoop, hp]
  exact hD

theorem exec_of_W (hp : s.pc.ph = .W) :
    exec i s = .next (phaseW (if i = .poll then complete else goto .A) s) := by
  rcases hi with rfl | rfl
  · simp [exec, execPoll, hp]
  · simp [exec, execLoop, hp]

/-- While the sample is Pressed phase `W` stays where it is. -/
theorem exec_of_W_pressed (hp : s.pc.ph = .W) (h : levelOf s.cfg (nextSample s) = .pressed) :
    exec i s = .next { s with rd := s.rd + 1, hist := s.hist ++ [.readpin (nextSample s)], res := .press } := by
  rw [exec_of_W hi hp, phaseW_of_pressed hp h]

/-- A Released sample in phase `W` ends the poll: `POLL` completes and `LOOP` goes to `A`. -/
theorem exec_of_W_released (hp : s.pc.ph = .W) (h : levelOf s.cfg (nextSample s) = .released) :
    exec i s = .next ((if i = .poll then complete else goto .A)
      { s with rd := s.rd + 1, hist := s.hist ++ [.readpin (nextSample s)], res := .press, evtPress := true }) := by
  rw [exec_of_W hi hp, phaseW_of_released h]

/-- In each phase of a poll the operation moves. -/
theorem exists_move_of_poll_phase (hp : s.pc.ph = .S ∨ s.pc.ph = .D ∨ s.pc.ph = .W) :
    ∃ t, exec i s = .next t ∧ Move i s t := by
  have hnext : ∃ t, exec i s = .next t := by
    rcases hp with hp | hp | hp
    · exact ⟨_, exec_of_S hi hp⟩
    · exact ⟨_, exec_of_D hi hp⟩
    · exact ⟨_, exec_of_W hi hp⟩
  obtain ⟨t, ht⟩ := hnext
  exact ⟨t, ht, move_of_exec (streamLegal_of_poll_or_loop hi) ht⟩

end

/-- Settles O17: an edge or none in phase `S`; in `D` and `W` no move writes `prev`. -/
theorem samplePhaseTestsEdge : Obligations.SamplePhaseTestsEdge := by
  refine fun i s hi => ⟨fun hp hold hcur => ?_, exec_of_S_noEdge hi, fun hp => ?_⟩
  · exact ⟨_, exec_of_S_edge hi hp hold hcur, hcur, rfl⟩
  · obtain ⟨t, ht, hm⟩ := exists_move_of_poll_phase hi (.inr hp)
    have hS : s.pc.ph ≠ .S := by rcases hp with hp | hp <;> simp [hp]
    exact ⟨t, ht, hm.prev_eq.trans (if_neg hS)⟩

/-- Settles O18: phase `D` is the delay and the move to `W`. -/
theorem delayPhaseOnlyDelays : Obligations.DelayPhaseOnlyDelays := fun _ _ => exec_of_D

/-- Settles O19: phase `W` by the level of its sample. -/
theorem waitPhaseHoldsUntilRelease : Obligations.WaitPhaseHoldsUntilRelease := by
  refine fun i s hi hp => ⟨exec_of_W_pressed hi hp, ?_, ?_⟩
  · rintro h rfl
    exact exec_of_W_released hi hp h
  · rintro h rfl
    exact exec_of_W_released hi hp h

/-- Settles O20: no edge starts from a pressed level, and the stored level is the one sampled. -/
theorem sustainedHoldIsNoChange : Obligations.SustainedHoldIsNoChange := by
  intro i s hi hp hold hcur
  have hno : ¬ (levelOf s.cfg s.prev = .released ∧ levelOf s.cfg (nextSample s) = .pressed) := by simp [hold]
  have hprev : nextSample s = s.prev := (levelOf_eq_pressed.1 hcur).trans (levelOf_eq_pressed.1 hold).symm
  have hraw : rawOf s.cfg .pressed = s.prev := (levelOf_eq_pressed.1 hold).symm
  rw [exec_of_S_noEdge hi hp hno, hprev, hraw]

/-! ## The selector is left alone (40_debouncer.md R74) -/

/-- Only phase `A` and the last phase of `BOOT` write the period register. -/
theorem Move.pr_eq {o : Instr} {s t : State} (h : Move o s t) (hA : s.pc.ph ≠ .A) (hB : s.pc.ph ≠ .B5) :
    t.pr = s.pr := by
  cases h <;> simp_all

/-- Settles O21: the moves write `idx` in phase `A` and `PR` in phases `A` and `B5`, and what `POLL` issues is a `READPIN`
or a `DELAY`. -/
theorem pollTouchesNoSelector : Obligations.PollTouchesNoSelector := by
  intro s hp
  have hA : s.pc.ph ≠ .A := by rcases hp with hp | hp | hp <;> simp [hp]
  have hB : s.pc.ph ≠ .B5 := by rcases hp with hp | hp | hp <;> simp [hp]
  obtain ⟨t, ht, hm⟩ := exists_move_of_poll_phase (.inl rfl) hp
  obtain ⟨e, hhist, hprim, -⟩ := hm.issues_one
  refine ⟨t, e, ht, hm.idx_eq.trans (if_neg hA), hm.pr_eq hA hB, hhist, ?_⟩
  rintro v rfl
  rcases hp with hp | hp | hp <;> rw [hp] at hprim <;> cases hprim

/-! ## The stored level while waiting (40_debouncer.md R63) -/

/-- No operation is entered inside a wait. -/
theorem not_waiting_of_entryPhase {o : Instr} {ph : Phase} (h : entryPhase o = some ph) : ph ≠ .D ∧ ph ≠ .W := by
  cases o <;> cases h <;> simp

/-- A run that goes on after a completion is not inside a wait. -/
theorem complete_ph_of_running {s : State} (h : (complete s).status = .running) :
    (complete s).pc.ph ≠ .D ∧ (complete s).pc.ph ≠ .W := by
  rcases complete_cases s with ⟨o, -, heq⟩ | ⟨-, heq⟩
  · rw [heq]
    cases o <;> simp [entryPhase]
  · simp [heq] at h

/-- A move into `D` or `W` sampled a press or was in `D` or `W` already. -/
theorem Move.cases_of_waiting {o : Instr} {s t : State} (h : Move o s t) (hrun : t.status = .running)
    (hw : t.pc.ph = .D ∨ t.pc.ph = .W) :
    (s.pc.ph = .S ∧ levelOf s.cfg (nextSample s) = .pressed) ∨ s.pc.ph = .D ∨ s.pc.ph = .W := by
  cases h
  case edge hp _ hcur => exact .inl ⟨hp, hcur⟩
  case delay hp => exact .inr (.inl hp)
  case stay hp _ => exact .inr (.inr hp)
  case pollDone hp _ => exact .inr (.inr hp)
  case loopRelease hp _ => exact .inr (.inr hp)
  case boot5 => exact absurd hw (not_or.2 (complete_ph_of_running hrun))
  case noEdge => exact absurd hw (not_or.2 (complete_ph_of_running hrun))
  case rotate => exact absurd hw (not_or.2 (complete_ph_of_running hrun))
  all_goals simp at hw

/-- A launch is at an operation boundary, so never inside a wait. -/
theorem PressedWhileWaiting.launched_of_admitted {s : State} (h : PressedWhileWaiting s) (hadm : admission s = none) :
    PressedWhileWaiting (launched s) := by
  intro _ hw
  cases hs : s.status with
  | running => exact h hs hw
  | ended => simp [admission, hs] at hadm
  | launch =>
    rw [admission, hs] at hadm
    obtain ⟨-, -, -, o, -, hentry⟩ := launchRefusal_eq_none.1 hadm
    exact absurd hw (not_or.2 (not_waiting_of_entryPhase hentry))

/-- Settles O52: a wait begins with a pressed sample, which `S` stores, and goes on without a write of `prev`. -/
theorem pressedWhileWaitingKept : Obligations.PressedWhileWaitingKept := by
  intro s t h hstep
  rcases step_cases hstep with ⟨-, rfl⟩ | ⟨-, hadm, -, rfl⟩ | ⟨-, hadm, -, o, -, -, hm⟩
  · exact fun hrun => nomatch hrun
  · exact h.launched_of_admitted hadm
  · intro hrun hw
    rw [hm.params_eq.1, hm.prev_eq]
    rcases hm.cases_of_waiting hrun hw with ⟨hp, hcur⟩ | hp
    · rwa [if_pos hp]
    · have hS : (launched s).pc.ph ≠ .S := fun hS => by rw [hS] at hp; simp at hp
      rw [if_neg hS]
      exact h.launched_of_admitted hadm rfl hp

/-! ## POLL as one big step (40_debouncer.md R66) -/

/-- A poll of operation `i` waits for the release: in phase `W` of a stepping block, the tap low. -/
structure InWait (i : Instr) (s : State) : Prop where
  stepping : Stepping s
  op : currentOp s = some i
  phase : s.pc.ph = .W
  tapLow : s.evtPress = false

/-- The state after a press edge and the delay. -/
def enterWait (s : State) : State :=
  { s with prev := s.pin.sample s.rd, rd := s.rd + 1, evtPress := false, pc := ⟨s.pc.k, .W⟩,
           hist := s.hist ++ [.readpin (s.pin.sample s.rd), .delay s.cfg.debounceMs] }

/-- The state after `m` Pressed samples in phase `W`. -/
def heldFor (m : Nat) (s : State) : State :=
  { s with rd := s.rd + m, res := if m = 0 then s.res else .press,
           hist := s.hist ++ (List.range m).map fun j => .readpin (s.pin.sample (s.rd + j)) }

theorem heldFor_zero (s : State) : heldFor 0 s = s := by simp [heldFor]

theorem heldFor_succ (m : Nat) (s : State) : heldFor (m + 1) s = heldFor m (heldFor 1 s) := by
  simp [heldFor, List.range_succ_eq_map, Function.comp_def, Nat.add_left_comm, Nat.add_comm]

theorem InWait.held {i : Instr} {s : State} (h : InWait i s) (m : Nat) : InWait i (heldFor m s) :=
  ⟨⟨h.stepping.running, h.stepping.accepting⟩, h.op, h.phase, h.tapLow⟩

/-- A step of a wait is the meaning of the operation in the state itself. -/
theorem InWait.runFor_succ {i : Instr} {s t : State} (h : InWait i s) (hi : i = .poll ∨ i = .loop)
    (he : exec i s = .next t) (n : Nat) : runFor (n + 1) s = runFor n t := by
  have hlow : { s with evtPress := false } = s := by rw [← h.tapLow]
  exact runFor_phase h.stepping h.op (streamLegal_of_poll_or_loop hi) (by rw [hlow, he]) rfl

/-- `m` Pressed samples at the front of a run that waits. -/
theorem InWait.runFor_held {i : Instr} {s : State} (h : InWait i s) (hi : i = .poll ∨ i = .loop) {m : Nat}
    (hheld : ∀ j, j < m → levelOf s.cfg (s.pin.sample (s.rd + j)) = .pressed) (n : Nat) :
    runFor (m + n) s = runFor n (heldFor m s) := by
  induction m generalizing s with
  | zero => rw [heldFor_zero, Nat.zero_add]
  | succ m ih =>
    have hfirst : exec i s = .next (heldFor 1 s) := exec_of_W_pressed hi h.phase (hheld 0 (by omega))
    have hrest : ∀ j, j < m → levelOf s.cfg (s.pin.sample (s.rd + 1 + j)) = .pressed := fun j hj => by
      rw [Nat.add_assoc, Nat.add_comm 1]
      exact hheld (j + 1) (by omega)
    rw [Nat.add_right_comm, h.runFor_succ hi hfirst, ih (h.held 1) hrest, ← heldFor_succ]

/-- `m` Pressed samples and a Released one at the front of a run that waits. -/
theorem InWait.runFor_release {i : Instr} {s : State} (h : InWait i s) (hi : i = .poll ∨ i = .loop) {m : Nat}
    (hheld : ∀ j, j < m → levelOf s.cfg (s.pin.sample (s.rd + j)) = .pressed)
    (hreleased : levelOf s.cfg (s.pin.sample (s.rd + m)) = .released) (n : Nat) :
    runFor (m + 1 + n) s =
      runFor n ((if i = .poll then complete else goto .A) (raiseTap (heldFor (m + 1) s))) := by
  have hdone := exec_of_W_released hi (h.held m).phase hreleased
  rw [Nat.add_assoc, h.runFor_held hi hheld, Nat.add_comm 1, (h.held m).runFor_succ hi hdone]
  simp [heldFor, raiseTap, nextSample, List.range_succ, Nat.add_assoc]

section
variable {i : Instr} {s : State} (hi : i = .poll ∨ i = .loop) (hs : Stepping s) (hop : currentOp s = some i)
include hs hop

theorem inWait_enterWait : InWait i (enterWait s) := ⟨⟨hs.running, hs.accepting⟩, hop, rfl, rfl⟩

include hi

/-- A press edge and the delay at the front of a run. -/
theorem runFor_enterWait (hp : s.pc.ph = .S) (hold : levelOf s.cfg s.prev = .released)
    (hcur : levelOf s.cfg (s.pin.sample s.rd) = .pressed) (n : Nat) : runFor (n + 2) s = runFor n (enterWait s) := by
  refine runFor_phase hs hop (streamLegal_of_poll_or_loop hi) (exec_of_S_edge hi hp hold hcur) ?_
  refine runFor_phase ⟨hs.running, hs.accepting⟩ hop (streamLegal_of_poll_or_loop hi) (exec_of_D hi rfl) ?_
  simp [enterWait, nextSample]

end

/-- Settles O22: the edge and the delay, `n - 1` Pressed samples of the wait, and the release. -/
theorem pollBigStep : Obligations.PollBigStep := by
  intro s hs hop hp
  refine ⟨fun hno => runFor_phase hs hop rfl (exec_of_S_noEdge (.inl rfl) hp hno) rfl, ?_⟩
  intro n hold hcur hn hheld hrel
  obtain ⟨m, rfl⟩ : ∃ m, n = m + 1 := ⟨n - 1, by omega⟩
  have hwait := inWait_enterWait hs hop
  have hpressed : ∀ j, j < m → levelOf s.cfg (s.pin.sample (s.rd + 1 + j)) = .pressed := fun j hj => by
    rw [Nat.add_assoc]
    exact hheld (1 + j) (by omega) (by omega)
  have hreleased : levelOf s.cfg (s.pin.sample (s.rd + 1 + m)) = .released := by
    rw [Nat.add_assoc, Nat.add_comm 1]
    exact hrel
  have hrun := hwait.runFor_release (.inl rfl) hpressed hreleased 0
  rw [runFor_enterWait (.inl rfl) hs hop hp hold hcur]
  refine hrun.trans ?_
  simp [enterWait, heldFor, raiseTap, runFor_zero, Nat.add_right_comm _ 1]

end Sys2Proof.Machine
end

section
/-! PROOFS of the family 41_selector.md: the increment of the index, phase `A`, the rotation by many `ADVANCE` operations,
`SETPR`, the conversion formula and the order of a legal table. -/

namespace Sys2Proof.Machine

/-! ## The increment (41_selector.md R78) -/

theorem nextIdx_eq_mod {c : Config} {idx : Nat} (h : idx < c.tableLen) : nextIdx c idx = (idx + 1) % c.tableLen := by
  unfold nextIdx
  rw [Nat.mod_eq_of_lt (succ_lt_two_pow_idxWidth_succ h)]
  exact wrap_eq_mod h

theorem narrowIdx_of_lt {c : Config} {n : Nat} (h : n < c.tableLen) : narrowIdx c n = n :=
  Nat.mod_eq_of_lt (h.trans_le tableLen_le_two_pow)

theorem narrowIdx_nextIdx {c : Config} {idx : Nat} (h : idx < c.tableLen) :
    narrowIdx c (nextIdx c idx) = (idx + 1) % c.tableLen := by
  rw [nextIdx_eq_mod h, narrowIdx_of_lt (Nat.mod_lt _ (Nat.zero_lt_of_lt h))]

/-- Settles O26: the sum fits its width, so the comparison wraps it, and the wrapped index is in the table. -/
theorem incrementIsModular : Obligations.IncrementIsModular := by
  intro c idx h
  have hnext := nextIdx_eq_mod h
  have hin : nextIdx c idx < c.tableLen := hnext ▸ Nat.mod_lt _ (Nat.zero_lt_of_lt h)
  exact ⟨hnext, narrowIdx_nextIdx h, by rw [hnext, tableRead], tableRead_isSome.2 hin⟩

/-! ## Phase `A` of ADVANCE and LOOP (41_selector.md R77) -/

theorem exec_of_A {i : Instr} {s : State} (hi : i = .advance ∨ i = .loop) (hp : s.pc.ph = .A) : exec i s = phaseA s := by
  rcases hi with rfl | rfl
  · simp [exec, execAdvance, hp]
  · simp [exec, execLoop, hp]

/-- Phase `A` with an index in range: the new index is the increment modulo the table length. -/
theorem phaseA_of_inRange {s : State} {v : Nat} (hidx : s.idx < s.cfg.tableLen)
    (hv : s.cfg.table[(s.idx + 1) % s.cfg.tableLen]? = some v) :
    phaseA s = .next (complete (setPeriod v (setIdx ((s.idx + 1) % s.cfg.tableLen) s))) := by
  have hread : tableRead s.cfg (nextIdx s.cfg s.idx) = some v := by rw [nextIdx_eq_mod hidx, tableRead, hv]
  rw [phaseA_of_some hread, narrowIdx_nextIdx hidx]

/-- Settles O25: the wrap by comparison is the remainder, which phase `A` computes. -/
theorem advancePhaseRotates : Obligations.AdvancePhaseRotates := by
  intro i s v hi hp hidx hv
  rw [wrap_eq_mod hidx] at hv ⊢
  rw [exec_of_A hi hp, phaseA_of_inRange hidx hv]
  rfl

/-! ## Many ADVANCE operations (41_selector.md R82) -/

/-- The entry at an index counted on past the end of the table. -/
def cyclicEntry (c : Config) (i : Nat) : Nat := c.table.getD (i % c.tableLen) 0

theorem getElem?_mod_tableLen {c : Config} (h : 0 < c.tableLen) (i : Nat) :
    c.table[i % c.tableLen]? = some (cyclicEntry c i) := by
  simp [cyclicEntry, Nat.mod_lt i h]

theorem cyclicEntry_mod_add (c : Config) (i j : Nat) : cyclicEntry c (i % c.tableLen + j) = cyclicEntry c (i + j) := by
  simp [cyclicEntry]

/-- The writes of `m` rotations from index `i`. -/
def rotationEvents (c : Config) (i m : Nat) : List Event := (List.range m).map fun j => .setpr (cyclicEntry c (i + 1 + j))

theorem rotationEvents_one (c : Config) (i : Nat) : rotationEvents c i 1 = [.setpr (cyclicEntry c (i + 1))] := rfl

theorem rotationEvents_succ (c : Config) (i m : Nat) :
    rotationEvents c i (m + 1) = rotationEvents c i 1 ++ rotationEvents c ((i + 1) % c.tableLen) m := by
  simp [rotationEvents, List.range_succ_eq_map, Function.comp_def, Nat.add_assoc, Nat.add_comm 1, cyclicEntry_mod_add]

/-- `t` is `s` after `m` rotations, up to the control state and the tap. -/
structure Rotated (m : Nat) (s t : State) : Prop where
  cfg : t.cfg = s.cfg
  idx : t.idx = (s.idx + m) % s.cfg.tableLen
  pr : t.pr = s.cfg.table[t.idx]?
  hist : t.hist = s.hist ++ rotationEvents s.cfg s.idx m
  prev : t.prev = s.prev
  res : t.res = s.res
  rd : t.rd = s.rd

/-- One rotation and `m` more. -/
theorem Rotated.succ {m : Nat} {s u t : State} (h : Rotated 1 s u) (h' : Rotated m u t) : Rotated (m + 1) s t where
  cfg := h'.cfg.trans h.cfg
  idx := by rw [h'.idx, h.idx, h.cfg, Nat.mod_add_mod, Nat.add_assoc, Nat.add_comm 1]
  pr := by rw [h'.pr, h.cfg]
  hist := by rw [h'.hist, h.hist, h.cfg, h.idx, rotationEvents_succ s.cfg s.idx m, List.append_assoc]
  prev := h'.prev.trans h.prev
  res := h'.res.trans h.res
  rd := h'.rd.trans h.rd

/-- The state an `ADVANCE` completes: the index rotated, its entry written, the tap low. -/
def rotateOnce (s : State) : State :=
  setPeriod (cyclicEntry s.cfg (s.idx + 1)) (setIdx ((s.idx + 1) % s.cfg.tableLen) { s with evtPress := false })

/-- An `ADVANCE` at the front of a run. -/
theorem runFor_advance {s : State} (hs : Stepping s) (hp : s.pc.ph = .A) (hidx : s.idx < s.cfg.tableLen)
    (hop : currentOp s = some .advance) (n : Nat) : runFor (n + 1) s = runFor n (complete (rotateOnce s)) := by
  have hentry := getElem?_mod_tableLen (Nat.zero_lt_of_lt hidx) (s.idx + 1)
  have hexec : exec .advance { s with evtPress := false } = .next (complete (rotateOnce s)) :=
    (exec_of_A (s := { s with evtPress := false }) (.inl rfl) hp).trans (phaseA_of_inRange hidx hentry)
  exact runFor_phase hs hop rfl hexec rfl

theorem rotated_complete_rotateOnce {s : State} (hidx : s.idx < s.cfg.tableLen) :
    Rotated 1 s (complete (rotateOnce s)) := by
  have hentry := getElem?_mod_tableLen (Nat.zero_lt_of_lt hidx) (s.idx + 1)
  constructor <;> simp [rotateOnce, setIdx, rotationEvents_one, hentry]

/-- After an `ADVANCE` before another one, the block steps on in that one's phase `A`. -/
theorem complete_rotateOnce_of_advance {s : State} (hnext : opAt s (s.pc.k + 1) = some .advance) :
    complete (rotateOnce s) = setPc ⟨s.pc.k + 1, .A⟩ (rotateOnce s) :=
  complete_of_some (s := rotateOnce s) hnext

/-- `m` consecutive `ADVANCE` operations rotate `m` times. -/
theorem exists_rotated_of_advances {s : State} {m : Nat} (hs : Stepping s) (hp : s.pc.ph = .A)
    (hidx : s.idx < s.cfg.tableLen) (hm : 1 ≤ m) (hops : ∀ j, j < m → opAt s (s.pc.k + j) = some .advance) :
    ∃ t, runFor m s = .next t ∧ Rotated m s t := by
  induction m, hm using Nat.le_induction generalizing s with
  | base => exact ⟨_, runFor_advance hs hp hidx (hops 0 Nat.one_pos) 0, rotated_complete_rotateOnce hidx⟩
  | succ m hm ih =>
    have hfirst := rotated_complete_rotateOnce hidx
    rw [runFor_advance hs hp hidx (hops 0 (Nat.succ_pos m)) m]
    rw [complete_rotateOnce_of_advance (hops 1 (by omega))] at hfirst ⊢
    have hrest : ∀ j, j < m → opAt s (s.pc.k + 1 + j) = some .advance := fun j hj => by
      rw [Nat.add_assoc, Nat.add_comm 1]
      exact hops (j + 1) (by omega)
    obtain ⟨t, hrun, hrot⟩ :=
      ih (s := setPc ⟨s.pc.k + 1, .A⟩ (rotateOnce s)) ⟨hs.running, hs.accepting⟩ rfl
        (Nat.mod_lt _ (Nat.zero_lt_of_lt hidx)) hrest
    exact ⟨t, hrun, hfirst.succ hrot⟩

/-- Settles O28: `m` rotations by induction on `m`; as many as the table is long add a multiple of its length. -/
theorem advanceIsPeriodic : Obligations.AdvanceIsPeriodic := by
  intro s m hs hp hidx hm hops
  obtain ⟨t, hrun, hrot⟩ := exists_rotated_of_advances hs hp hidx hm hops
  refine ⟨t, hrun, hrot.idx, hrot.pr, hrot.hist, hrot.prev, hrot.res, hrot.rd, fun hlen => ?_⟩
  rw [hrot.idx, hlen, Nat.add_mod_right, Nat.mod_eq_of_lt hidx]

/-! ## SETPR (41_selector.md R80) -/

theorem issuedPrimitive_eq_setpr_iff {o : Instr} {ph : Phase} :
    issuedPrimitive o ph = some .setpr ↔ (o = .advance ∨ o = .loop) ∧ ph = .A := by
  constructor
  · intro h
    unfold issuedPrimitive at h
    split at h <;> cases h <;> simp
  · rintro ⟨rfl | rfl, rfl⟩ <;> rfl

/-- Settles O11: `SETPR` reads the entry and writes it, and a legal configuration bounds every entry. -/
theorem setprWritesPeriod : Obligations.SetprWritesPeriod := by
  refine ⟨rfl, fun _ _ => issuedPrimitive_eq_setpr_iff, fun _ => rfl, fun _ _ => rfl,
    fun _ _ => execSetpr_of_entry, fun s v hlegal hv => ?_⟩
  obtain ⟨_, hfits, _⟩ := legal_iff.1 hlegal
  exact hfits v (List.mem_of_getElem? hv)

/-! ## The conversion formula (41_selector.md R83) -/

section
variable {c p f v : Nat}

theorem periodOf_eq_some (hp : 0 < p) (hf : 0 < f) :
    periodOf c p f = some v ↔ 4 * p * f ≤ c ∧ v = c / (4 * p * f) - 1 := by
  have hpos : 0 < 4 * p * f := by positivity
  simp [periodOf, hpos, eq_comm]

/-- The frequency a period value produces, compared with a target without the division. -/
theorem le_freqOf_iff (hp : 0 < p) : (f : ℚ) ≤ freqOf c p v ↔ 4 * p * f * (v + 1) ≤ c := by
  have hmul : (f : ℚ) * (4 * (v + 1) * p) = ((4 * p * f * (v + 1) : ℕ) : ℚ) := by push_cast; ring
  rw [freqOf, le_div_iff₀ (by positivity), hmul, Nat.cast_le]

theorem freqOf_eq_iff (hp : 0 < p) : freqOf c p v = (f : ℚ) ↔ 4 * p * f * (v + 1) = c := by
  have hmul : (f : ℚ) * (4 * (v + 1) * p) = ((4 * p * f * (v + 1) : ℕ) : ℚ) := by push_cast; ring
  rw [freqOf, div_eq_iff (by positivity), hmul, Nat.cast_inj, eq_comm]

end

/-- Settles O59: the period plus 1 is the truncated quotient, whose product with the divisor is at most `C`, and is `C`
exactly when the division has no rest. -/
theorem formulaErrsUpward : Obligations.FormulaErrsUpward := by
  intro c p f hp hf
  have hpos : 0 < 4 * p * f := by positivity
  refine ⟨by simp [periodOf_eq_some hp hf], fun v hv => ?_⟩
  obtain ⟨hle, rfl⟩ := (periodOf_eq_some hp hf).1 hv
  have hquot : c / (4 * p * f) - 1 + 1 = c / (4 * p * f) := Nat.sub_add_cancel (Nat.div_pos hle hpos)
  rw [le_freqOf_iff hp, freqOf_eq_iff hp, hquot]
  exact ⟨rfl, Nat.mul_div_le c _, (Dvd.intro _ ·), Nat.mul_div_cancel'⟩

/-! ## The order of a legal table (41_selector.md R84) -/

theorem strictlyDecreasing_iff_pairwise {l : List Nat} : strictlyDecreasing l = true ↔ l.Pairwise (· > ·) := by
  rw [← List.isChain_iff_pairwise, List.isChain_iff_getElem, strictlyDecreasing_iff]
  exact forall₂_congr fun i h => by rw [List.getD_eq_getElem _ _ h, List.getD_eq_getElem _ _ (by omega), gt_iff_lt]

/-- A smaller period is a strictly higher frequency. -/
theorem freqOf_lt_freqOf {c p a b : Nat} (hc : 0 < c) (hp : 0 < p) (h : b < a) : freqOf c p a < freqOf c p b := by
  unfold freqOf
  gcongr

/-- Settles O60: the entries of a legal table decrease from each to every later one. -/
theorem laterEntriesAreFaster : Obligations.LaterEntriesAreFaster := by
  intro c i j a b hlegal hclk hpre hij ha hb
  obtain ⟨_, _, hdec⟩ := legal_iff.1 hlegal
  obtain ⟨hi, rfl⟩ := List.getElem?_eq_some_iff.1 ha
  obtain ⟨hj, rfl⟩ := List.getElem?_eq_some_iff.1 hb
  have hlt := List.pairwise_iff_getElem.1 (strictlyDecreasing_iff_pairwise.1 hdec) i j hi hj hij
  exact ⟨hlt, freqOf_lt_freqOf hclk hpre hlt⟩

end Sys2Proof.Machine
end

section
/-! PROOFS of the family 42_main_loop.md: the form of the history under `AUTO`, `LOOP` with a press as one big step, when a
step is taken, and completion. -/

namespace Sys2Proof.Machine

/-! ## The stream `AUTO` (42_main_loop.md R89) -/

theorem opAt_auto_zero {s : State} (h : s.prog = Prog.auto) : opAt s 0 = some .boot := by
  rw [opAt, h]; rfl

theorem opAt_auto_succ {s : State} (h : s.prog = Prog.auto) (k : Nat) : opAt s (k + 1) = some .loop := by
  rw [opAt, h]; rfl

/-- Under `AUTO` every completion goes on to the sample phase of a `LOOP`. -/
theorem complete_of_auto {s : State} (h : s.prog = Prog.auto) : complete s = setPc ⟨s.pc.k + 1, .S⟩ s :=
  complete_of_some (opAt_auto_succ h _)

/-! ## The form of the history under `AUTO` (42_main_loop.md R92, 10_state.md R28)

`AutoTrace` is taken apart into its two halves: the bring-up at position 0, and the main loop after it. -/

/-- The bring-up half of `AutoTrace`, with `v` the first entry of the table. -/
structure InBringup (v : Nat) (s : State) : Prop where
  position : s.pc.k = 0
  idx : s.idx = 0
  prev : s.prev = rawOf s.cfg .released
  pr : s.pr = none
  entry : tableRead s.cfg 0 = some v
  recorded : ∃ n, bootPhaseNumber s.pc.ph = some n ∧ s.hist = (bootEvents s.cfg v).take n

/-- The main loop half of `AutoTrace`: whole iterations `tr` with `j` presses, after which the level `old` was stored, and
the part of the iteration in progress. -/
structure InMainLoop (v j : Nat) (tr : List Event) (old : Bit) (part : List Event) (s : State) : Prop where
  position : 1 ≤ s.pc.k
  running : s.status = .running
  whole : Iterations s.cfg j tr old
  current : InProgress s.cfg old s.pc.ph part s.prev
  entry : tableRead s.cfg 0 = some v
  hist : s.hist = bootEvents s.cfg v ++ tr ++ part
  idx : s.idx = j % s.cfg.tableLen
  pr : tableRead s.cfg s.idx = s.pr

theorem autoTrace_iff {s : State} : AutoTrace s ↔ s.prog = Prog.auto ∧
    ((∃ v, InBringup v s) ∨ ∃ v j tr old part, InMainLoop v j tr old part s) := by
  refine and_congr_right fun _ => or_congr ?_ ?_
  · constructor
    · rintro ⟨hk, hidx, hprev, hpr, n, v, hn, hv, hhist⟩
      exact ⟨v, hk, hidx, hprev, hpr, hv, n, hn, hhist⟩
    · rintro ⟨v, hk, hidx, hprev, hpr, hv, n, hn, hhist⟩
      exact ⟨hk, hidx, hprev, hpr, n, v, hn, hv, hhist⟩
  · constructor
    · rintro ⟨hk, hrun, j, tr, old, part, v, hwhole, hcur, hv, hhist, hidx, hpr⟩
      exact ⟨v, j, tr, old, part, hk, hrun, hwhole, hcur, hv, hhist, hidx, hpr⟩
    · rintro ⟨v, j, tr, old, part, hk, hrun, hwhole, hcur, hv, hhist, hidx, hpr⟩
      exact ⟨hk, hrun, j, tr, old, part, v, hwhole, hcur, hv, hhist, hidx, hpr⟩

theorem InBringup.autoTrace {v : Nat} {s : State} (h : InBringup v s) (hauto : s.prog = Prog.auto) : AutoTrace s :=
  autoTrace_iff.2 ⟨hauto, .inl ⟨v, h⟩⟩

theorem InMainLoop.autoTrace {v j : Nat} {tr part : List Event} {old : Bit} {s : State}
    (h : InMainLoop v j tr old part s) (hauto : s.prog = Prog.auto) : AutoTrace s :=
  autoTrace_iff.2 ⟨hauto, .inr ⟨v, j, tr, old, part, h⟩⟩

/-- The table of a run under `AUTO` has an entry 0. -/
theorem AutoTrace.exists_entry {s : State} (h : AutoTrace s) : ∃ v, tableRead s.cfg 0 = some v := by
  obtain ⟨-, ⟨v, h⟩ | ⟨v, _, _, _, _, h⟩⟩ := autoTrace_iff.1 h <;> exact ⟨v, h.entry⟩

/-! ### Reset and waiting -/

/-- A reset starts the bring-up again. -/
theorem inBringup_applyReset {v : Nat} {s : State} (hauto : s.prog = Prog.auto) (hv : tableRead s.cfg 0 = some v) :
    InBringup v (applyReset s) := by
  have hpc : (applyReset s).pc = ⟨0, .B0⟩ := by rw [applyReset_pc, opAt_auto_zero hauto]; rfl
  exact ⟨rfl, rfl, rfl, rfl, hv, 0, by rw [hpc]; rfl, rfl⟩

/-- What every edge does first, and launching the run, leave the form as it is. -/
theorem AutoTrace.launched {s : State} (h : AutoTrace s) : AutoTrace (launched s) := by
  obtain ⟨hauto, ⟨v, h⟩ | ⟨v, j, tr, old, part, h⟩⟩ := autoTrace_iff.1 h
  · exact InBringup.autoTrace (v := v) { h with } hauto
  · exact InMainLoop.autoTrace { h with running := rfl } hauto

/-! ### The bring-up -/

section
variable {v n : Nat} {s : State} (h : InBringup v s) (hn : bootPhaseNumber s.pc.ph = some n)
include h hn

theorem InBringup.hist_eq : s.hist = (bootEvents s.cfg v).take n := by
  obtain ⟨m, hm, hhist⟩ := h.recorded
  obtain rfl : m = n := Option.some.inj (hm.symm.trans hn)
  exact hhist

/-- The next bring-up event, recorded with the move to the next phase, keeps the form. -/
theorem InBringup.next {e : Event} {ph : Phase} (he : (bootEvents s.cfg v)[n]? = some e)
    (hph : bootPhaseNumber ph = some (n + 1)) :
    InBringup v { s with hist := s.hist ++ [e], pc := ⟨s.pc.k, ph⟩ } :=
  { h with recorded := ⟨n + 1, hph, by simp [h.hist_eq hn, List.take_add_one, he]⟩ }

end

/-- The last bring-up event enters the main loop, before its first iteration. -/
theorem InBringup.enter_loop {v : Nat} {s : State} (h : InBringup v s) (hrun : s.status = .running)
    (hp : s.pc.ph = .B5) :
    InMainLoop v 0 [] (rawOf s.cfg .released) []
      (setPc ⟨s.pc.k + 1, .S⟩ { s with hist := s.hist ++ [.armtmr v s.cfg.prescaler], pr := some v }) where
  position := Nat.le_add_left 1 _
  running := hrun
  whole := .start
  current := h.prev ▸ .sample s.prev
  entry := h.entry
  hist := by simp [setPc, h.hist_eq (n := 5) (by rw [hp]; rfl), bootEvents]
  idx := h.idx.trans (Nat.zero_mod _).symm
  pr := (congrArg _ h.idx).trans h.entry

theorem InBringup.move {v : Nat} {s t : State} (h : InBringup v s) (hauto : s.prog = Prog.auto)
    (hrun : s.status = .running) (hm : Move .boot s t) : AutoTrace t := by
  cases hm with
  | boot0 _ hp => exact (h.next (n := 0) (by rw [hp]; rfl) rfl rfl).autoTrace hauto
  | boot1 _ hp => exact (h.next (n := 1) (by rw [hp]; rfl) rfl rfl).autoTrace hauto
  | boot2 _ hp => exact (h.next (n := 2) (by rw [hp]; rfl) rfl rfl).autoTrace hauto
  | boot3 _ hp => exact (h.next (n := 3) (by rw [hp]; rfl) rfl rfl).autoTrace hauto
  | boot4 _ hp => exact (h.next (n := 4) (by rw [hp]; rfl) rfl rfl).autoTrace hauto
  | boot5 _ w hp hw =>
    obtain rfl : v = w := Option.some.inj (h.entry.symm.trans hw)
    rw [complete_of_auto (by exact hauto)]
    exact (h.enter_loop hrun hp).autoTrace hauto
  | edge _ _ ho | noEdge _ _ ho | delay _ _ ho | stay _ _ ho | rotate _ _ _ ho => simp at ho

/-! ### The main loop -/

section
variable {c : Config} {old prev : Bit} {part : List Event}

theorem inProgress_S_iff : InProgress c old .S part prev ↔ part = [] ∧ prev = old := by
  constructor
  · rintro ⟨⟩; exact ⟨rfl, rfl⟩
  · rintro ⟨rfl, rfl⟩; exact .sample _

theorem inProgress_D_iff : InProgress c old .D part prev ↔
    levelOf c old = .released ∧ part = [.readpin (rawOf c .pressed)] ∧ prev = rawOf c .pressed := by
  constructor
  · rintro ⟨⟩; exact ⟨‹_›, rfl, rfl⟩
  · rintro ⟨h, rfl, rfl⟩; exact .delay _ h

theorem inProgress_W_iff : InProgress c old .W part prev ↔
    levelOf c old = .released ∧ (∃ m, part = pressPart c m) ∧ prev = rawOf c .pressed := by
  constructor
  · rintro ⟨⟩; exact ⟨‹_›, ⟨_, rfl⟩, rfl⟩
  · rintro ⟨h, ⟨m, rfl⟩, rfl⟩; exact .wait _ m h

theorem inProgress_A_iff : InProgress c old .A part prev ↔
    levelOf c old = .released ∧ (∃ m, part = pressPart c m ++ [.readpin (rawOf c .released)]) ∧
      prev = rawOf c .pressed := by
  constructor
  · rintro ⟨⟩; exact ⟨‹_›, ⟨_, rfl⟩, rfl⟩
  · rintro ⟨h, ⟨m, rfl⟩, rfl⟩; exact .advance _ m h

end

theorem eq_rawOf_of_levelOf {c : Config} {b : Bit} {l : Level} (h : levelOf c b = l) : b = rawOf c l := by
  cases l
  · exact levelOf_eq_released.1 h
  · exact levelOf_eq_pressed.1 h

theorem pressPart_zero (c : Config) : pressPart c 0 = [.readpin (rawOf c .pressed), .delay c.debounceMs] := rfl

theorem pressPart_succ (c : Config) (m : Nat) :
    pressPart c (m + 1) = pressPart c m ++ [.readpin (rawOf c .pressed)] := by
  simp [pressPart, List.replicate_succ']

section
variable {v j : Nat} {tr part : List Event} {old : Bit} {s : State} (h : InMainLoop v j tr old part s)
include h

/-- A press edge begins an iteration with a press. -/
theorem InMainLoop.edge (hp : s.pc.ph = .S) (hold : levelOf s.cfg s.prev = .released)
    (hcur : levelOf s.cfg (nextSample s) = .pressed) :
    InMainLoop v j tr old [.readpin (nextSample s)]
      { s with prev := nextSample s, rd := s.rd + 1, hist := s.hist ++ [.readpin (nextSample s)],
               pc := ⟨s.pc.k, .D⟩ } := by
  obtain ⟨rfl, hprev⟩ := inProgress_S_iff.1 (hp ▸ h.current)
  rw [hprev] at hold
  rw [eq_rawOf_of_levelOf hcur]
  exact { h with current := .delay old hold, hist := by simp [h.hist] }

/-- A sample without an edge is a whole iteration. -/
theorem InMainLoop.idle (hp : s.pc.ph = .S)
    (hno : ¬ (levelOf s.cfg s.prev = .released ∧ levelOf s.cfg (nextSample s) = .pressed)) :
    InMainLoop v j (tr ++ [.readpin (nextSample s)]) (nextSample s) []
      (setPc ⟨s.pc.k + 1, .S⟩ { s with prev := nextSample s, rd := s.rd + 1,
                                       hist := s.hist ++ [.readpin (nextSample s)], res := .noChange }) := by
  obtain ⟨rfl, hprev⟩ := inProgress_S_iff.1 (hp ▸ h.current)
  rw [hprev] at hno
  exact { h with
    position := Nat.le_add_left 1 _
    whole := .idle j tr old _ h.whole hno
    current := .sample _
    hist := by simp [setPc, h.hist] }

/-- The delay begins the wait. -/
theorem InMainLoop.delay (hp : s.pc.ph = .D) :
    InMainLoop v j tr old (part ++ [.delay s.cfg.debounceMs])
      { s with hist := s.hist ++ [.delay s.cfg.debounceMs], pc := ⟨s.pc.k, .W⟩ } := by
  obtain ⟨hold, rfl, hprev⟩ := inProgress_D_iff.1 (hp ▸ h.current)
  exact { h with current := inProgress_W_iff.2 ⟨hold, ⟨0, rfl⟩, hprev⟩, hist := by simp [h.hist] }

/-- A Pressed sample goes on with the wait. -/
theorem InMainLoop.stay (hp : s.pc.ph = .W) (hcur : levelOf s.cfg (nextSample s) = .pressed) :
    InMainLoop v j tr old (part ++ [.readpin (nextSample s)])
      { s with rd := s.rd + 1, hist := s.hist ++ [.readpin (nextSample s)], res := .press } := by
  obtain ⟨hold, ⟨m, rfl⟩, hprev⟩ := inProgress_W_iff.1 (hp ▸ h.current)
  rw [eq_rawOf_of_levelOf hcur, ← pressPart_succ]
  exact { h with
    current := hp ▸ inProgress_W_iff.2 ⟨hold, ⟨m + 1, rfl⟩, hprev⟩
    hist := by simp [h.hist, pressPart_succ] }

/-- A Released sample ends the wait. -/
theorem InMainLoop.release (hp : s.pc.ph = .W) (hcur : levelOf s.cfg (nextSample s) = .released) :
    InMainLoop v j tr old (part ++ [.readpin (nextSample s)])
      { s with rd := s.rd + 1, hist := s.hist ++ [.readpin (nextSample s)], res := .press, evtPress := true,
               pc := ⟨s.pc.k, .A⟩ } := by
  obtain ⟨hold, ⟨m, rfl⟩, hprev⟩ := inProgress_W_iff.1 (hp ▸ h.current)
  rw [eq_rawOf_of_levelOf hcur]
  exact { h with current := inProgress_A_iff.2 ⟨hold, ⟨m, rfl⟩, hprev⟩, hist := by simp [h.hist] }

theorem InMainLoop.idx_lt : s.idx < s.cfg.tableLen :=
  h.idx ▸ Nat.mod_lt _ (tableRead_isSome.1 (h.entry ▸ rfl))

/-- The index after the one of `j` presses is that of `j + 1`. -/
theorem InMainLoop.next_index : (s.idx + 1) % s.cfg.tableLen = (j + 1) % s.cfg.tableLen := by
  rw [h.idx, Nat.mod_add_mod]

/-- The rotation completes an iteration with a press. -/
theorem InMainLoop.rotate {w : Nat} (hp : s.pc.ph = .A) (hw : tableRead s.cfg (nextIdx s.cfg s.idx) = some w) :
    InMainLoop v (j + 1) (tr ++ part ++ [.setpr w]) s.prev []
      (setPc ⟨s.pc.k + 1, .S⟩ { s with idx := narrowIdx s.cfg (nextIdx s.cfg s.idx), pr := some w,
                                       hist := s.hist ++ [.setpr w] }) := by
  obtain ⟨hold, ⟨m, rfl⟩, hprev⟩ := inProgress_A_iff.1 (hp ▸ h.current)
  rw [nextIdx_eq_mod h.idx_lt, h.next_index] at hw
  have hwhole := Iterations.press j tr old m w h.whole hold hw
  rw [narrowIdx_nextIdx h.idx_lt, h.next_index]
  exact { h with
    position := Nat.le_add_left 1 _
    whole := by simpa [setPc, hprev] using hwhole
    current := .sample _
    hist := by simp [setPc, h.hist]
    idx := rfl
    pr := hw }

theorem InMainLoop.move {t : State} (hauto : s.prog = Prog.auto) (hm : Move .loop s t) : AutoTrace t := by
  cases hm with
  | edge _ _ _ hp hold hcur => exact (h.edge hp hold hcur).autoTrace hauto
  | noEdge _ _ _ hp hno =>
    rw [complete_of_auto (by exact hauto)]
    exact (h.idle hp hno).autoTrace hauto
  | delay _ _ _ hp => exact (h.delay hp).autoTrace hauto
  | stay _ _ _ hp hcur => exact (h.stay hp hcur).autoTrace hauto
  | loopRelease _ hp hcur => exact (h.release hp hcur).autoTrace hauto
  | rotate _ _ w _ hp hw =>
    rw [complete_of_auto (by exact hauto)]
    exact (h.rotate hp hw).autoTrace hauto

end

/-! ### Every step -/

/-- A move of the operation at `pc` keeps the form: `BOOT` at position 0, `LOOP` after it. -/
theorem AutoTrace.move {o : Instr} {s t : State} (h : AutoTrace s) (hrun : s.status = .running)
    (ho : currentOp s = some o) (hm : Move o s t) : AutoTrace t := by
  obtain ⟨hauto, ⟨v, h⟩ | ⟨v, j, tr, old, part, h⟩⟩ := autoTrace_iff.1 h
  · rw [currentOp, h.position, opAt_auto_zero hauto] at ho
    cases ho
    exact h.move hauto hrun hm
  · rw [currentOp, ← Nat.sub_add_cancel h.position, opAt_auto_succ hauto] at ho
    cases ho
    exact h.move hauto hm

/-- Settles O50: reset starts the bring-up again, a waiting edge keeps the form, and so does every move of `BOOT` and
`LOOP`. -/
theorem autoTraceKept : Obligations.AutoTraceKept := by
  intro s t h hstep
  rcases step_cases hstep with ⟨-, rfl⟩ | ⟨-, -, -, rfl⟩ | ⟨-, -, -, o, ho, -, hm⟩
  · obtain ⟨v, hv⟩ := h.exists_entry
    exact InBringup.autoTrace (inBringup_applyReset (s := beginEdge s) h.1 hv) h.1
  · exact h.launched
  · exact h.launched.move rfl ho hm

/-- Every reset leaves a history that determines the state: the empty one. -/
theorem histDetermines_applyReset (s : State) : HistDetermines (applyReset s) := ⟨rfl, rfl, rfl, rfl⟩

theorem applyReset_reset : applyReset State.reset = State.reset := rfl

/-- Settles O51: the state after reset is the one a reset leaves. -/
theorem traceInvariantsAtReset : Obligations.TraceInvariantsAtReset := by
  have hboot : InBringup 199 (applyReset State.reset) := inBringup_applyReset rfl rfl
  rw [Obligations.TraceInvariantsAtReset, ← applyReset_reset]
  exact ⟨hboot.autoTrace rfl, histDetermines_applyReset _⟩

/-! ## LOOP with a press as one big step (42_main_loop.md R86, R87) -/

/-- Settles O23: the edge and the delay, `n - 1` Pressed samples of the wait, the release, and the rotation. -/
theorem loopBigStep : Obligations.LoopBigStep := by
  intro s n v hs hop hp hold hcur hn hheld hrel hidx hv
  obtain ⟨m, rfl⟩ : ∃ m, n = m + 1 := ⟨n - 1, by omega⟩
  have hpressed : ∀ j, j < m → levelOf s.cfg (s.pin.sample (s.rd + 1 + j)) = .pressed := fun j hj => by
    rw [Nat.add_assoc]
    exact hheld (1 + j) (by omega) (by omega)
  have hreleased : levelOf s.cfg (s.pin.sample (s.rd + 1 + m)) = .released := by
    rw [Nat.add_assoc, Nat.add_comm 1]
    exact hrel
  have hwait := inWait_enterWait hs hop
  have hrun := hwait.runFor_release (.inr rfl) hpressed hreleased 1
  rw [runFor_enterWait (.inr rfl) hs hop hp hold hcur (m + 1 + 1)]
  refine hrun.trans (runFor_phase (o := .loop) ⟨hs.running, hs.accepting⟩ hop rfl
    ((exec_of_A (.inr rfl) rfl).trans (phaseA_of_inRange hidx hv)) ?_)
  simp [enterWait, heldFor, raiseTap, setIdx, setPeriod, emit, runFor_zero, Nat.add_right_comm _ 1]

/-! ## When an operation stops (42_main_loop.md R88) -/

/-- A sequencer operation stops in the phases in which it issues nothing. -/
theorem exec_of_issuedPrimitive_none {i : Instr} {s : State} (hl : i.streamLegal = true)
    (h : issuedPrimitive i s.pc.ph = none) : exec i s = .refused .unreachablePhase := by
  rcases streamLegal_iff.1 hl with rfl | rfl | rfl | rfl
  all_goals
    cases hp : s.pc.ph <;> rw [hp] at h <;> cases h
    all_goals simp only [exec, execPoll, execAdvance, execLoop, execBoot, hp]

/-- A sequencer operation takes its phase exactly when it issues a primitive in it whose entry is in the table. -/
theorem exists_exec_iff {i : Instr} {s : State} (hl : i.streamLegal = true) : (∃ t, exec i s = .next t) ↔
    ∃ p, issuedPrimitive i s.pc.ph = some p ∧ (s.cfg.table = [] → p ≠ .armtmr ∧ p ≠ .setpr) := by
  constructor
  · rintro ⟨t, ht⟩
    have hm := move_of_exec hl ht
    obtain ⟨e, hhist, hp, -⟩ := hm.issues_one
    have hargs : (issueArgs s e.instr).isSome = true := by rw [(hm.bus_of_recorded hhist).1]; rfl
    exact ⟨e.instr, hp, (issueArgs_isSome_iff (streamLegal_and_isPrimitive_of_issued hp).2).1 hargs⟩
  · rintro ⟨p, hp, htable⟩
    have hargs := (issueArgs_isSome_iff (streamLegal_and_isPrimitive_of_issued hp).2).2 htable
    obtain ⟨ab, hab⟩ := Option.isSome_iff_exists.1 hargs
    exact exec_of_issueArgs hp hab

/-- Settles O58: with an entry in the table every primitive that is issued has its arguments. -/
theorem onlyUnreachablePairsStop : Obligations.OnlyUnreachablePairsStop := by
  intro i s hl htable
  refine ⟨exec_of_issuedPrimitive_none hl, fun h => ?_⟩
  obtain ⟨p, hp⟩ := Option.isSome_iff_exists.1 h
  exact (exists_exec_iff hl).2 ⟨p, hp, fun hempty => absurd hempty htable⟩

/-! ## When a step is taken (42_main_loop.md R88, R90; 60_exceptions.md R106, R112) -/

/-- Settles O41: of the three things a step can do, the move of an operation is one exactly where the operation takes its
phase. -/
theorem stepTakenExactly : Obligations.StepTakenExactly := by
  intro s
  constructor
  · rintro ⟨t, h⟩
    rcases step_cases h with ⟨hr, -⟩ | ⟨-, hadm, hk, -⟩ | ⟨hr, hadm, hk, o, ho, hl, -⟩
    · exact .inl hr
    · exact .inr ⟨hadm, .inl hk⟩
    · rw [step_of_admitted hr hk hadm ho hl] at h
      obtain ⟨p, hp, htable⟩ := (exists_exec_iff hl).1 ⟨t, h⟩
      exact .inr ⟨hadm, .inr ⟨o, p, ho, hp, htable⟩⟩
  · intro h
    cases hr : (portsNow s).rst with
    | true => exact ⟨_, step_of_reset hr⟩
    | false =>
      obtain ⟨hadm, hissue⟩ := h.resolve_left (by simp [hr])
      cases hk : (portsNow s).ack with
      | false => exact ⟨_, step_of_waiting hr hadm hk⟩
      | true =>
        obtain ⟨o, p, ho, hp, htable⟩ := hissue.resolve_left (by simp [hk])
        have hl := (streamLegal_and_isPrimitive_of_issued hp).1
        rw [step_of_admitted hr hk hadm ho hl]
        exact (exists_exec_iff hl).2 ⟨p, hp, htable⟩

/-- Settles O32: the operation at `pc` is the decoded word. -/
theorem stepRunsDecodedOperation : Obligations.StepRunsDecodedOperation := by
  intro s w hr hk hadm hw hl
  have hop : currentOp s = some (decode w) := by rw [currentOp, opAt, hw]; rfl
  exact step_of_admitted hr hk hadm hop hl

/-- Settles O42: a run that has ended is not admitted. -/
theorem endedRunTakesNoStep : Obligations.EndedRunTakesNoStep := by
  intro s hs hr
  have hadm : admission s = some .ended := by rw [admission, hs]
  exact step_of_refusal hr hadm

/-! ## Completion (42_main_loop.md R88, R90) -/

/-- Settles O16: completion moves to the next operation's entry phase, or ends the run where there is none. -/
theorem completionEntersNextOperation : Obligations.CompletionEntersNextOperation := fun _ =>
  ⟨complete_of_some, complete_of_some, complete_of_some, complete_of_some, complete_of_none⟩

end Sys2Proof.Machine
end

section
/-! PROOFS of the family 43_bringup.md: the five configuration primitives, the six phases of `BOOT`, `BOOT` as one big step,
and that nothing but `BOOT` configures. -/

namespace Sys2Proof.Machine

/-! ## Where a configuration primitive is issued (43_bringup.md R100, R102) -/

/-- Outside `BOOT` only the primitives of the selector and the debouncer are issued. -/
theorem issued_cases_of_ne_boot {o p : Instr} {ph : Phase} (h : issuedPrimitive o ph = some p) (ho : o ≠ .boot) :
    p = .setpr ∨ p = .readpin ∨ p = .delay := by
  unfold issuedPrimitive at h
  split at h <;> cases h <;> simp at ho ⊢

/-- A primitive that is none of those is issued by `BOOT` alone. -/
theorem issuedPrimitive_eq_some_iff_boot {o p : Instr} {ph : Phase} (hp : ¬ (p = .setpr ∨ p = .readpin ∨ p = .delay)) :
    issuedPrimitive o ph = some p ↔ o = .boot ∧ issuedPrimitive .boot ph = some p := by
  constructor
  · intro h
    obtain rfl : o = .boot := by_contra fun ho => hp (issued_cases_of_ne_boot h ho)
    exact ⟨rfl, h⟩
  · rintro ⟨rfl, h⟩
    exact h

theorem issuedPrimitive_eq_cfgdir_iff {o : Instr} {ph : Phase} :
    issuedPrimitive o ph = some .cfgdir ↔ o = .boot ∧ (ph = .B0 ∨ ph = .B1) := by
  rw [issuedPrimitive_eq_some_iff_boot (by simp)]
  cases ph <;> simp [issuedPrimitive]

theorem issuedPrimitive_eq_cfgpu_iff {o : Instr} {ph : Phase} :
    issuedPrimitive o ph = some .cfgpu ↔ o = .boot ∧ ph = .B2 := by
  rw [issuedPrimitive_eq_some_iff_boot (by simp)]
  cases ph <;> simp [issuedPrimitive]

theorem issuedPrimitive_eq_selclk_iff {o : Instr} {ph : Phase} :
    issuedPrimitive o ph = some .selclk ↔ o = .boot ∧ ph = .B3 := by
  rw [issuedPrimitive_eq_some_iff_boot (by simp)]
  cases ph <;> simp [issuedPrimitive]

theorem issuedPrimitive_eq_cfgpwm_iff {o : Instr} {ph : Phase} :
    issuedPrimitive o ph = some .cfgpwm ↔ o = .boot ∧ ph = .B4 := by
  rw [issuedPrimitive_eq_some_iff_boot (by simp)]
  cases ph <;> simp [issuedPrimitive]

theorem issuedPrimitive_eq_armtmr_iff {o : Instr} {ph : Phase} :
    issuedPrimitive o ph = some .armtmr ↔ o = .boot ∧ ph = .B5 := by
  rw [issuedPrimitive_eq_some_iff_boot (by simp)]
  cases ph <;> simp [issuedPrimitive]

/-! ## The configuration primitives (43_bringup.md R95 to R99) -/

/-- `CFGDIR` on its arguments, whichever they are. -/
theorem exec_cfgdir_of_args {s : State} {pin : Nat} {out : Bool} (h : cfgdirArgs s = (pin, out)) :
    exec .cfgdir s = .next { s with hist := s.hist ++ [.cfgdir pin out] } := by
  simp [exec, execCfgdir, emit, h]

/-- The arguments of `CFGDIR` are one of two pairs, in every phase (log 8). -/
theorem cfgdirArgs_cases (s : State) : cfgdirArgs s = (s.cfg.btnPin, false) ∨ cfgdirArgs s = (s.cfg.pwmPin, true) := by
  unfold cfgdirArgs
  cases s.pc.ph
  case B0 => exact .inl rfl
  case B1 => exact .inr rfl
  all_goals exact (ite_eq_or_eq _ _ _).symm

theorem cfgdirArgs_of_B0 {s : State} (hp : s.pc.ph = .B0) : cfgdirArgs s = (s.cfg.btnPin, false) := by
  simp [cfgdirArgs, hp]

theorem cfgdirArgs_of_B1 {s : State} (hp : s.pc.ph = .B1) : cfgdirArgs s = (s.cfg.pwmPin, true) := by
  simp [cfgdirArgs, hp]

/-- Settles O7: `CFGDIR` records its arguments, which the phases `B0` and `B1` fix. -/
theorem cfgdirRecordsItsArguments : Obligations.CfgdirRecordsItsArguments := by
  refine ⟨rfl, fun _ _ => issuedPrimitive_eq_cfgdir_iff, fun _ _ _ => rfl, fun s => ?_,
    fun _ hp => exec_cfgdir_of_args (cfgdirArgs_of_B0 hp), fun _ hp => exec_cfgdir_of_args (cfgdirArgs_of_B1 hp)⟩
  rcases cfgdirArgs_cases s with h | h
  · exact ⟨_, _, exec_cfgdir_of_args h, .inl ⟨rfl, rfl⟩⟩
  · exact ⟨_, _, exec_cfgdir_of_args h, .inr ⟨rfl, rfl⟩⟩

/-- Settles O8: `CFGPU` emits its event and does nothing else. -/
theorem cfgpuRecordsItsArguments : Obligations.CfgpuRecordsItsArguments :=
  ⟨rfl, fun _ _ => issuedPrimitive_eq_cfgpu_iff, fun _ _ _ => rfl, fun _ => rfl⟩

/-- Settles O9: `SELCLK` and `CFGPWM` emit their events and do nothing else. -/
theorem selclkCfgpwmRecordTheirArguments : Obligations.SelclkCfgpwmRecordTheirArguments :=
  ⟨rfl, rfl, fun _ _ => issuedPrimitive_eq_selclk_iff, fun _ _ => issuedPrimitive_eq_cfgpwm_iff, fun _ _ _ => rfl,
    fun _ _ _ => rfl, fun _ => rfl, fun _ => rfl⟩

/-- Settles O10: `ARMTMR` reads entry 0 and loads it. -/
theorem armtmrLoadsEntryZero : Obligations.ArmtmrLoadsEntryZero :=
  ⟨rfl, fun _ _ => issuedPrimitive_eq_armtmr_iff, fun _ _ _ => rfl, fun _ _ => execArmtmr_of_entry⟩

/-! ## The phases of BOOT (43_bringup.md R100) -/

/-- Every move of `BOOT` is what its meaning answers. -/
theorem exec_boot_of_move {s t : State} (h : Move .boot s t) : exec .boot s = .next t := by
  cases h with
  | boot0 _ hp | boot1 _ hp | boot2 _ hp | boot3 _ hp | boot4 _ hp => simp only [exec, execBoot, hp]; rfl
  | boot5 _ _ hp hv => exact execBoot_of_entry hp hv
  | edge _ _ ho | noEdge _ _ ho | delay _ _ ho | stay _ _ ho | rotate _ _ _ ho => simp at ho

/-- Settles O29: one move in each phase. -/
theorem bootPhases : Obligations.BootPhases := fun s =>
  ⟨fun hp => exec_boot_of_move (.boot0 s hp), fun hp => exec_boot_of_move (.boot1 s hp),
    fun hp => exec_boot_of_move (.boot2 s hp), fun hp => exec_boot_of_move (.boot3 s hp),
    fun hp => exec_boot_of_move (.boot4 s hp), fun v hp hv => exec_boot_of_move (.boot5 s v hp hv)⟩

/-! ## BOOT as one big step (43_bringup.md R94, R100, R101) -/

/-- A move of `BOOT` at the front of a run. -/
theorem runFor_boot_move {n : Nat} {s t : State} {r : Result} (hs : Stepping s) (hop : currentOp s = some .boot)
    (hm : Move .boot { s with evtPress := false } t) (h : runFor n t = r) : runFor (n + 1) s = r :=
  runFor_phase hs hop rfl (exec_boot_of_move hm) h

/-- Settles O30: the six moves one after another, of which only the last leaves the operation. -/
theorem bootBigStep : Obligations.BootBigStep := by
  intro s v hs hop hp hv
  refine runFor_boot_move hs hop (.boot0 _ hp) ?_
  refine runFor_boot_move ⟨hs.running, hs.accepting⟩ hop (.boot1 _ rfl) ?_
  refine runFor_boot_move ⟨hs.running, hs.accepting⟩ hop (.boot2 _ rfl) ?_
  refine runFor_boot_move ⟨hs.running, hs.accepting⟩ hop (.boot3 _ rfl) ?_
  refine runFor_boot_move ⟨hs.running, hs.accepting⟩ hop (.boot4 _ rfl) ?_
  refine runFor_boot_move ⟨hs.running, hs.accepting⟩ hop (.boot5 _ v rfl hv) ?_
  simp [runFor_zero, bootEvents]

/-! ## Only BOOT configures (43_bringup.md R99, R102; 41_selector.md R80) -/

/-- A move keeps `PR` or records the write of its new value. -/
theorem Move.pr_of_recorded {o : Instr} {s t : State} {e : Event} (h : Move o s t) (he : t.hist = s.hist ++ [e]) :
    t.pr = s.pr ∨ ∃ v, t.pr = some v ∧ (e = .setpr v ∨ ∃ p, e = .armtmr v p) := by
  cases h
  case boot5 v _ _ => exact .inr ⟨v, complete_pr _, .inr ⟨_, by simpa using he.symm⟩⟩
  case rotate v _ _ _ => exact .inr ⟨v, complete_pr _, .inl (by simpa using he.symm)⟩
  case noEdge | pollDone => exact .inl (complete_pr _)
  all_goals exact .inl rfl

/-- Settles O31: a waiting edge records nothing, and a move one event, of the primitive its operation issues. -/
theorem onlyBootConfigures : Obligations.OnlyBootConfigures := by
  intro s t hr h
  rcases step_cases h with ⟨hr', -⟩ | ⟨-, -, -, rfl⟩ | ⟨-, -, -, o, ho, -, hm⟩
  · simp [hr] at hr'
  · exact ⟨[], (List.append_nil _).symm, nofun, fun hne => absurd rfl hne⟩
  · obtain ⟨e, hhist, hprim, -⟩ := hm.issues_one
    refine ⟨[e], hhist, fun hboot e' he' => ?_, fun hne => ?_⟩
    · obtain rfl : e' = e := List.mem_singleton.1 he'
      exact issued_cases_of_ne_boot hprim fun h => hboot (h ▸ ho)
    · obtain ⟨v, hv, he⟩ := (hm.pr_of_recorded hhist).resolve_left hne
      exact ⟨v, hv, by simpa [eq_comm] using he⟩

end Sys2Proof.Machine
end

section
/-! PROOFS of the family 60_exceptions.md: the launch checks, the button that is never released, and the invariant of a
well-formed run. -/

namespace Sys2Proof.Machine

/-! ## The launch checks (60_exceptions.md R112, 10_state.md R29) -/

/-- Settles O43: the checks of stream and table, each said by its elements. -/
theorem launchPassesExactly : Obligations.LaunchPassesExactly := by
  intro s
  rw [launchRefusal_eq_none, legal_iff, strictlyDecreasing_iff]
  simp only [streamLegal_iff, and_assoc, Config.prMax]

/-- Settles O46: an edge without reset answers the refusal of the launch checks. -/
theorem illFormedLaunchRefused : Obligations.IllFormedLaunchRefused := by
  intro s r hs hr h
  have hadm : admission s = some r := by rw [admission, hs, h]
  exact step_of_refusal hr hadm

/-! ## A button never released (60_exceptions.md R108, 70_reset_and_hazards.md R125) -/

/-- With the one sample `b` at every read of the wait, the history grows by copies of it. -/
theorem heldFor_of_constant {s : State} {b : Bit} (h : ∀ j, s.pin.sample (s.rd + j) = b) (m : Nat) :
    heldFor m s = { s with rd := s.rd + m, res := if m = 0 then s.res else .press,
                           hist := s.hist ++ List.replicate m (.readpin b) } := by
  simp [heldFor, h]

/-- The reset that ends a run of a block that steps. -/
theorem step_reset_of_stepping {s : State} (hs : Stepping s) :
    step { s with inputs := [⟨true, false⟩] } = .next (applyReset s) := by
  rw [step_of_reset rfl]
  simp [applyReset, beginEdge, opAt, hs.accepting]

/-- Settles O24: the edge and the delay, and then every sample holds the wait. -/
theorem stuckButtonHangs : Obligations.StuckButtonHangs := by
  intro i s hi hs hop hp hold hstuck m
  have hwait := inWait_enterWait hs hop
  have hheld (j : Nat) : levelOf s.cfg (s.pin.sample (s.rd + 1 + j)) = .pressed := by
    rw [Nat.add_assoc]
    exact hstuck (1 + j)
  have hrun : runFor (m + 2) s = .next (heldFor m (enterWait s)) := by
    rw [runFor_enterWait hi hs hop hp hold (hstuck 0)]
    exact hwait.runFor_held hi (fun j _ => hheld j) 0
  have hfirst : s.pin.sample s.rd = rawOf s.cfg .pressed := levelOf_eq_pressed.1 (hstuck 0)
  have hform := heldFor_of_constant (s := enterWait s) (fun j => levelOf_eq_pressed.1 (hheld j)) m
  refine ⟨_, hrun, hform.trans ?_, step_reset_of_stepping (hwait.held m).stepping⟩
  simp [enterWait, hfirst, rawOf, Nat.add_right_comm _ 1]

/-! ## The invariant of a well-formed run (60_exceptions.md R112, 10_state.md R28) -/

/-! ### A step is taken -/

theorem AtBoundary.reachablePair {s : State} (h : AtBoundary s) : ReachablePair s := by
  obtain ⟨o, ho, hentry⟩ := h
  obtain ⟨p, hp⟩ := Option.isSome_iff_exists.1 (issuedPrimitive_entryPhase hentry)
  exact ⟨o, p, ho, hp⟩

section
variable {s : State} (h : RunSafe s)
include h

theorem RunSafe.table_ne_nil : s.cfg.table ≠ [] := (legal_iff.1 h.params.config).1

/-- A safe run that has not ended is admitted, at a pair of operation and phase that issues something. -/
theorem RunSafe.admitted (hs : s.status ≠ .ended) : admission s = none ∧ ReachablePair s := by
  cases hst : s.status with
  | launch =>
    have hboundary := h.atLaunch hst
    have hpass := launchRefusal_eq_none.2 ⟨h.params.stream, h.params.config, h.index, hboundary⟩
    exact ⟨by rw [admission, hst, hpass], hboundary.reachablePair⟩
  | running => exact ⟨admission_of_running hst, h.atRunning hst⟩
  | ended => exact absurd hst hs

theorem RunSafe.exists_step (hs : s.status ≠ .ended) : ∃ t, step s = .next t := by
  obtain ⟨hadm, o, p, ho, hp⟩ := h.admitted hs
  exact (stepTakenExactly s).2 (.inr ⟨hadm, .inr ⟨o, p, ho, hp, fun hempty => absurd hempty h.table_ne_nil⟩⟩)

end

/-! ### Reset and waiting -/

/-- Legal parameters are a matter of the configuration and the stream alone. -/
theorem LegalParams.of_params_eq {s t : State} (h : LegalParams s) (hcfg : t.cfg = s.cfg) (hprog : t.prog = s.prog) :
    LegalParams t where
  config := hcfg ▸ h.config
  stream := hprog ▸ h.stream
  start := by rw [opAt, hprog]; exact h.start

/-- A legal operation of the stream has an entry phase. -/
theorem exists_entryPhase {s : State} {k : Nat} {o : Instr} (h : ∀ w ∈ s.prog.words, (decode w).streamLegal = true)
    (ho : opAt s k = some o) : ∃ ph, entryPhase o = some ph :=
  Option.isSome_iff_exists.1 (entryPhase_isSome.trans (opAt_streamLegal h ho))

/-- Reset goes to the boundary of the operation at position 0. -/
theorem LegalParams.atBoundary_applyReset {s : State} (h : LegalParams s) : AtBoundary (applyReset s) := by
  obtain ⟨o, ho⟩ := Option.isSome_iff_exists.1 h.start
  obtain ⟨ph, hph⟩ := exists_entryPhase h.stream ho
  exact ⟨o, ho, by simp [ho, hph]⟩

theorem RunSafe.applyReset {s : State} (h : RunSafe s) : RunSafe (applyReset s) where
  params := h.params.of_params_eq rfl rfl
  index := Nat.zero_lt_of_lt h.index
  atLaunch _ := h.params.atBoundary_applyReset
  atRunning hrun := nomatch hrun

theorem RunSafe.beginEdge {s : State} (h : RunSafe s) : RunSafe (beginEdge s) :=
  ⟨h.params.of_params_eq rfl rfl, h.index, h.atLaunch, h.atRunning⟩

theorem ne_ended_of_admitted {s : State} (h : admission s = none) : s.status ≠ .ended := by
  intro hs
  simp [admission, hs] at h

theorem RunSafe.launched {s : State} (h : RunSafe s) (hadm : admission s = none) : RunSafe (launched s) where
  params := h.params.of_params_eq rfl rfl
  index := h.index
  atLaunch hs := nomatch hs
  atRunning _ := (h.admitted (ne_ended_of_admitted hadm)).2

/-! ### Moves -/

/-- A move goes on to a phase in which its operation issues something, or it completes the operation. -/
theorem Move.continues_or_completes {o : Instr} {s t : State} (h : Move o s t) :
    (t.pc.k = s.pc.k ∧ (issuedPrimitive o t.pc.ph).isSome = true ∧ t.status = s.status) ∨
    ∃ u, t = complete u ∧ u.prog = s.prog ∧ u.status = s.status := by
  cases h with
  | boot0 | boot1 | boot2 | boot3 | boot4 | loopRelease => exact .inl ⟨rfl, rfl, rfl⟩
  | edge _ _ ho | delay _ _ ho => exact .inl ⟨rfl, by rcases ho with rfl | rfl <;> rfl, rfl⟩
  | stay _ _ ho hp => exact .inl ⟨rfl, by rw [hp]; rcases ho with rfl | rfl <;> rfl, rfl⟩
  | boot5 | noEdge | pollDone | rotate => exact .inr ⟨_, rfl, rfl, rfl⟩

/-- Completion in a legal stream leaves the run at an operation boundary, or ended. -/
theorem complete_atBoundary_or_ended {s : State} (h : ∀ w ∈ s.prog.words, (decode w).streamLegal = true) :
    ((complete s).status = s.status ∧ AtBoundary (complete s)) ∨ (complete s).status = .ended := by
  rcases complete_cases s with ⟨o, ho, heq⟩ | ⟨-, heq⟩
  · obtain ⟨ph, hph⟩ := exists_entryPhase h ho
    rw [heq]
    exact .inl ⟨rfl, o, ho, by simp [hph]⟩
  · exact .inr (by rw [heq])

/-- A move of a running block leaves it running at a pair that issues something, or ended. -/
theorem Move.running_or_ended {o : Instr} {s t : State} (hm : Move o s t) (hrun : s.status = .running)
    (ho : currentOp s = some o) (h : ∀ w ∈ s.prog.words, (decode w).streamLegal = true) :
    (t.status = .running ∧ ReachablePair t) ∨ t.status = .ended := by
  rcases hm.continues_or_completes with ⟨hk, hissue, hst⟩ | ⟨u, rfl, hprog, hst⟩
  · obtain ⟨p, hp⟩ := Option.isSome_iff_exists.1 hissue
    have hop : currentOp t = some o := by rw [currentOp, opAt, hm.params_eq.2.1, hk]; exact ho
    exact .inl ⟨hst.trans hrun, o, p, hop, hp⟩
  · exact (complete_atBoundary_or_ended (hprog ▸ h)).imp_left fun ⟨hst', hb⟩ =>
      ⟨hst'.trans (hst.trans hrun), hb.reachablePair⟩

/-- A move keeps the index in range. -/
theorem Move.idx_lt {o : Instr} {s t : State} (h : Move o s t) (hidx : s.idx < s.cfg.tableLen) :
    t.idx < t.cfg.tableLen := by
  rw [h.idx_eq, h.params_eq.1]
  split
  · rw [narrowIdx_nextIdx hidx]
    exact Nat.mod_lt _ (Nat.zero_lt_of_lt hidx)
  · exact hidx

theorem RunSafe.move {o : Instr} {s t : State} (h : RunSafe s) (hrun : s.status = .running)
    (ho : currentOp s = some o) (hm : Move o s t) : RunSafe t := by
  obtain ⟨hcfg, hprog, -⟩ := hm.params_eq
  have hparams := h.params.of_params_eq hcfg hprog
  rcases hm.running_or_ended hrun ho h.params.stream with ⟨hst, hpair⟩ | hst
  · exact ⟨hparams, hm.idx_lt h.index, by simp [hst], fun _ => hpair⟩
  · exact ⟨hparams, hm.idx_lt h.index, by simp [hst], by simp [hst]⟩

/-! ### Every step -/

/-- Reset, waiting and every move keep a run safe. -/
theorem RunSafe.step {s t : State} (h : RunSafe s) (hstep : step s = .next t) : RunSafe t := by
  rcases step_cases hstep with ⟨-, rfl⟩ | ⟨-, hadm, -, rfl⟩ | ⟨-, hadm, -, o, ho, -, hm⟩
  · exact h.beginEdge.applyReset
  · exact h.launched hadm
  · exact (h.launched hadm).move rfl ho hm

/-- Settles O47: a safe run that has not ended is admitted where something can be issued, and every step keeps it safe. -/
theorem runSafeProgresses : Obligations.RunSafeProgresses := fun _ h => ⟨h.exists_step, fun _ => h.step⟩

end Sys2Proof.Machine
end

section
/-! PROOFS of the family 70_reset_and_hazards.md: what a reader of the event history knows of the state, and the reset
that wins at every edge. -/

namespace Sys2Proof.Machine

/-! ## The state as a reader of the history sees it (70_reset_and_hazards.md R126) -/

/-- The part of the state that the history determines: `prev`, `idx`, `PR`, and whether the block waits for a release. -/
def shadowOf (s : State) : Shadow where
  prev := s.prev
  waiting := decide (s.status = .running) && decide (s.pc.ph = .W)
  idx := s.idx
  pr := s.pr

/-- The history determines the state when reading it from the reset values gives the part it determines. -/
theorem histDetermines_iff {s : State} :
    HistDetermines s ↔ s.hist.foldl (Shadow.read s.cfg) (Shadow.init s.cfg) = shadowOf s := by
  rw [Shadow.mk.injEq]
  exact ⟨fun ⟨hprev, hidx, hpr, hwait⟩ => ⟨hprev, hwait, hidx, hpr⟩,
    fun ⟨hprev, hwait, hidx, hpr⟩ => ⟨hprev, hidx, hpr, hwait⟩⟩

/-- Completion leaves every wait: no operation is entered inside one, and an ended run has none. -/
theorem shadowOf_complete (s : State) : shadowOf (complete s) = { shadowOf s with waiting := false } := by
  have hwait : (decide ((complete s).status = .running) && decide ((complete s).pc.ph = .W)) = false := by
    simpa using fun hrun => (complete_ph_of_running hrun).2
  simp [shadowOf, hwait]

/-- Launching a safe run begins no wait: a launch is at an operation boundary. -/
theorem shadowOf_launched {s : State} (h : RunSafe s) (hadm : admission s = none) :
    shadowOf (launched s) = shadowOf s := by
  cases hs : s.status with
  | launch =>
    obtain ⟨o, -, hentry⟩ := h.atLaunch hs
    simp [shadowOf, hs, (not_waiting_of_entryPhase hentry).2]
  | running => rw [shadowOf, shadowOf, hs]; rfl
  | ended => exact absurd hs (ne_ended_of_admitted hadm)

/-- A move records one event, and reading that event says what the move does to the part the history determines. -/
theorem Move.exists_read {o : Instr} {s t : State} (h : Move o s t) (hrun : s.status = .running)
    (hidx : s.idx < s.cfg.tableLen) : ∃ e, t.hist = s.hist ++ [e] ∧ shadowOf t = (shadowOf s).read s.cfg e := by
  cases h with
  | boot0 _ hp | boot1 _ hp | boot2 _ hp | boot3 _ hp | boot4 _ hp => exact ⟨_, rfl, by simp [shadowOf, Shadow.read, hp]⟩
  | boot5 _ v hp _ => exact ⟨_, complete_hist _, by rw [shadowOf_complete]; simp [shadowOf, Shadow.read, hp]⟩
  | edge _ _ _ hp _ _ => exact ⟨_, rfl, by simp [shadowOf, Shadow.read, hp]⟩
  | noEdge _ _ _ hp _ => exact ⟨_, complete_hist _, by rw [shadowOf_complete]; simp [shadowOf, Shadow.read, hp]⟩
  | delay _ _ _ _ => exact ⟨_, rfl, by simp [shadowOf, Shadow.read, hrun]⟩
  | stay _ _ _ hp hcur => exact ⟨_, rfl, by simp [shadowOf, Shadow.read, hrun, hp, hcur]⟩
  | pollDone _ hp hcur =>
    exact ⟨_, complete_hist _, by rw [shadowOf_complete]; simp [shadowOf, Shadow.read, hrun, hp, hcur]⟩
  | loopRelease _ hp hcur => exact ⟨_, rfl, by simp [shadowOf, Shadow.read, hrun, hp, hcur]⟩
  | rotate _ _ v _ hp _ =>
    exact ⟨_, complete_hist _, by rw [shadowOf_complete]; simp [shadowOf, Shadow.read, hp, narrowIdx_nextIdx hidx]⟩

/-! ### Every step -/

theorem HistDetermines.launched {s : State} (h : HistDetermines s) (hsafe : RunSafe s) (hadm : admission s = none) :
    HistDetermines (launched s) :=
  histDetermines_iff.2 ((histDetermines_iff.1 h).trans (shadowOf_launched hsafe hadm).symm)

theorem HistDetermines.move {o : Instr} {s t : State} (h : HistDetermines s) (hrun : s.status = .running)
    (hidx : s.idx < s.cfg.tableLen) (hm : Move o s t) : HistDetermines t := by
  obtain ⟨e, hhist, hread⟩ := hm.exists_read hrun hidx
  rw [histDetermines_iff, hm.params_eq.1, hhist, List.foldl_concat, histDetermines_iff.1 h, hread]

/-- Settles O49: reset empties the history, a waiting edge records nothing and begins no wait, and the event of a move says
what the move does. -/
theorem historyDeterminesState : Obligations.HistoryDeterminesState := by
  intro s t hsafe h hstep
  rcases step_cases hstep with ⟨-, rfl⟩ | ⟨-, hadm, -, rfl⟩ | ⟨-, hadm, -, o, -, -, hm⟩
  · exact histDetermines_applyReset _
  · exact h.launched hsafe hadm
  · exact (h.launched hsafe hadm).move rfl hsafe.index hm

/-! ## Reset (70_reset_and_hazards.md R120, R125) -/

/-- Reset goes to the entry phase of the operation at position 0. -/
theorem applyReset_ph_of_entry {s : State} {o : Instr} {ph : Phase} (ho : opAt s 0 = some o)
    (hph : entryPhase o = some ph) : (applyReset s).pc.ph = ph := by
  simp [ho, hph]

/-- Settles O39: an edge with `rst` high answers the reset of the state in which the edge has begun. -/
theorem resetWinsAtEveryEdge : Obligations.ResetWinsAtEveryEdge := fun s hr =>
  ⟨applyReset (beginEdge s), step_of_reset hr, rfl, rfl, rfl, rfl, fun _ _ => applyReset_ph_of_entry (s := beginEdge s),
    rfl, rfl, rfl, rfl, rfl, rfl, rfl, rfl, rfl⟩

end Sys2Proof.Machine
end
